-- ==== Sys2Proof/Word.lean ====
section
/-! DEFINITION. The word types of CORE: bytes, the 16-bit instruction word and the 32-bit register word (spec 00_scope.md R6, R9, R10). -/

namespace Sys2Proof

/-- An 8-bit byte, the smallest unit the bus moves (20_memory.md R78). -/
abbrev Byte := BitVec 8

/-- A 16-bit halfword: an instruction word (30_encoding.md R110) or a display cell (20_memory.md R72). -/
abbrev Half := BitVec 16

/-- A 32-bit register value or bus address; its arithmetic is modulo 2^32 (00_scope.md R10, 20_memory.md R97). -/
abbrev Word := BitVec 32

/-- A register operand of an instruction: a 3-bit field that names x[0] to x[7] (30_encoding.md R123). -/
abbrev LoReg := Fin 8

/-- The index of a general register, x[0] to x[15] (10_state.md R30). -/
abbrev RegIdx := Fin 16

end Sys2Proof
end

