-- ==== Sys2Proof/Config.lean ====
section
/-! DEFINITION. The parameters a CORE machine is built with (spec 00_scope.md R7), and the constraints the spec puts on them. -/

namespace Sys2Proof

/-- The named parameters of 00_scope.md R7. The spec gives them no values ("a model takes each as an argument"), so a
state carries its own (`State.cfg`) and every claim about a step holds for every choice (assumption 1). -/
structure Config where
  /-- DISPLAY_BASE: first byte address of the display-surface region. -/
  displayBase : Nat
  /-- DISPLAY_CELLS: number of 16-bit cells of the display surface. -/
  displayCells : Nat
  /-- ROM_BASE: first byte address of the program-image region, and the reset pc. -/
  romBase : Nat
  /-- ROM_WINDOW: size in bytes of the program-image region's reserved window. -/
  romWindow : Nat
  /-- WRAM_BASE: first byte address of working memory. -/
  wramBase : Nat
  /-- WRAM_SIZE: size in bytes of working memory. -/
  wramSize : Nat
  /-- SP_RESET: x[13] after reset. -/
  spReset : Nat
  /-- COND_E_TAKEN: whether a conditional branch with condition code 0xE is taken (10_state.md R51, 90_conflicts.md C9). -/
  condETaken : Bool
  deriving DecidableEq, Repr

/-- Two byte ranges (first address, size) share no address. -/
abbrev rangesDisjoint (a sizeA b sizeB : Nat) : Prop := a + sizeA ≤ b ∨ b + sizeB ≤ a

/-- The constraints of 00_scope.md R7: even bases, positive sizes, SP_RESET inside working memory, regions that do not
overlap (20_memory.md R71) and do not wrap past 0xFFFFFFFF. A configuration outside them is one the spec refuses
(93_implementation_defined.md B2, B4). -/
abbrev Config.wf (c : Config) : Prop :=
  c.displayBase % 2 = 0 ∧ 1 ≤ c.displayCells ∧ c.displayBase + 2 * c.displayCells ≤ 2 ^ 32 ∧
  c.romBase % 2 = 0 ∧ 2 ≤ c.romWindow ∧ c.romBase + c.romWindow ≤ 2 ^ 32 ∧
  1 ≤ c.wramSize ∧ c.wramBase + c.wramSize ≤ 2 ^ 32 ∧
  c.wramBase ≤ c.spReset ∧ c.spReset < c.wramBase + c.wramSize ∧
  rangesDisjoint c.displayBase (2 * c.displayCells) c.romBase c.romWindow ∧
  rangesDisjoint c.displayBase (2 * c.displayCells) c.wramBase c.wramSize ∧
  rangesDisjoint c.romBase c.romWindow c.wramBase c.wramSize

end Sys2Proof
end

