-- ==== Sys2Proof/Machine/ResetValues.lean ====
section
/-! DEFINITION. The values reset leaves (10_state.md R54, 70_reset_and_hazards.md R270) and the configuration the model's
own reset state is built with. -/

namespace Sys2Proof.Machine

/-- The register file after reset: x[13] is SP_RESET, x[15] is ROM_BASE, every other register is 0 (10_state.md R54). -/
def resetRegs (c : Config) : Vector Word 16 :=
  #v[0, 0, 0, 0, 0, 0, 0, 0, 0, 0, 0, 0, 0, BitVec.ofNat 32 c.spReset, 0, BitVec.ofNat 32 c.romBase]

/-- The status word after reset: T = 1, everything else 0 (10_state.md R54; the zeros are the spec's decision D4, which
the model follows; assumption 9). -/
def resetSw : Word := 0x00000020

/-- PRESUMED (assumption 2) and, for `condETaken`, DESIGN CHOICE (assumption 3): the configuration of `State.reset` alone.
The spec leaves every one of these open; the numbers are its GBA profile (00_scope.md R7), and `condETaken` has no profile
value at all. -/
def launchConfig : Config where
  displayBase := 0x06000000
  displayCells := 38400
  romBase := 0x08000000
  romWindow := 0x02000000
  wramBase := 0x03000000
  wramSize := 0x8000
  spReset := 0x03007F00
  condETaken := false

end Sys2Proof.Machine
end

