-- ==== Sys2Proof/Machine/State.lean ====
section
/-! DEFINITION. The state of CORE, the ways a step could stop, and the state after reset. State is plain data and holds
every piece of state of 10_state.md and 20_memory.md (see INVENTORY.md). -/

namespace Sys2Proof.Machine

/-- The mutable stores behind the bus, working memory and the display surface, as (address, byte) pairs at their bus
addresses: addresses strictly rising, no byte 0, an unlisted address holding 0 (`Memory.wf`; assumptions 4 and 25). -/
abbrev Memory := List Host.Cell

/-- The four condition flags (10_state.md R36). -/
structure NZCV where
  n : Bool
  z : Bool
  c : Bool
  v : Bool
  deriving DecidableEq, Repr

/-- The whole state of the machine. -/
structure State where
  /-- x[0] to x[15]; 13 is SP, 14 is LR, 15 is the PC (10_state.md R30, R31). -/
  regs : Vector Word 16
  /-- The status word SW: N, Z, C, V in bits 31 to 28, T in bit 5 (R36). -/
  sw : Word
  /-- WRAM and DISP (20_memory.md R72). -/
  mem : Memory
  /-- IMG, the program image; its length is IMG_LEN (10_state.md R52). No step changes it (20_memory.md R90). -/
  img : List Byte
  /-- DISPLAY_ATTACHED (R52). No step changes it. -/
  displayAttached : Bool
  /-- ROM_ATTACHED (R52). No step changes it. -/
  romAttached : Bool
  /-- The parameters this machine was built with (00_scope.md R7; assumption 1). No step changes them. -/
  cfg : Config
  deriving DecidableEq, Repr

/-- The ways a step faults: none. CORE raises no exception on any input (60_exceptions.md R250, 00_scope.md R14), so
there is no constructor and no one who could raise it (assumption 31; safe: nothing stops that the hardware runs). -/
inductive Fault where
  deriving DecidableEq, Repr

/-- The ways a step is refused. -/
inductive Refusal where
  /-- Raised by an arm of `exec` alone, for an instruction the model has no meaning for yet (safe: the run stops). No
  arm raises it: all 57 instructions have a meaning. -/
  | notModelled (mnemonic : String)
  deriving DecidableEq, Repr

/-- What a meaning answers. -/
abbrev Result := Host.Outcome State Fault Refusal

/-- The machine right after reset: registers and SW as 10_state.md R54 says. What reset does not touch and the spec
leaves to the launch is here an empty image, attached stores holding zeros, and `launchConfig` (assumptions 2 to 5). -/
def State.reset : State where
  regs := resetRegs launchConfig
  sw := resetSw
  mem := []
  img := []
  displayAttached := true
  romAttached := true
  cfg := launchConfig

end Sys2Proof.Machine
end

