-- ==== Sys2Proof/Machine/Ops.lean ====
section
/-! DEFINITION. The named operations over registers and the bus (00_scope.md R11, R12; 20_memory.md). CORE has no
exception entry and no exception return (60_exceptions.md R250, R253, R254), so there is no operation for either. -/

namespace Sys2Proof.Machine

/-! ### Registers (10_state.md R30 to R35) -/

/-- x[i]. -/
def State.reg (s : State) (i : RegIdx) : Word := s.regs[i]

/-- x[i] <- v: stored as given, never rejected (10_state.md R33). -/
def State.setReg (s : State) (i : RegIdx) (v : Word) : State := { s with regs := s.regs.set i v }

/-- The general register a 3-bit operand field names (30_encoding.md R123). -/
def loIdx (r : LoReg) : RegIdx := r.castLE (by decide)

/-- The value of an operand register. -/
def State.lo (s : State) (r : LoReg) : Word := s.reg (loIdx r)

/-- Writing an operand register. -/
def State.setLo (s : State) (r : LoReg) (v : Word) : State := s.setReg (loIdx r) v

/-- pc, which is x[15]. During an instruction it holds pcn, the fetch address plus 2 (10_state.md R34, R35). -/
def State.pc (s : State) : Word := s.reg 15

/-- pc <- target. -/
def State.setPc (s : State) (v : Word) : State := s.setReg 15 v

/-! ### The bus region arbiter (20_memory.md R71, R74) -/

/-- Where the arbiter routes a byte address. -/
inductive Region where
  | display
  | rom
  | wram
  | unmapped
  deriving DecidableEq, Repr

/-- `Region(a)`: range tests in a fixed order (20_memory.md R74). -/
def regionAt (c : Config) (a : Nat) : Region :=
  if c.displayBase ≤ a ∧ a < c.displayBase + 2 * c.displayCells then .display
  else if c.romBase ≤ a ∧ a < c.romBase + c.romWindow then .rom
  else if c.wramBase ≤ a ∧ a < c.wramBase + c.wramSize then .wram
  else .unmapped

/-- The region of a bus address in the machine of `s`. -/
def State.region (s : State) (a : Word) : Region := regionAt s.cfg a.toNat

/-- Whether a byte written to `a` is kept: in working memory, and in the display region while it is attached
(20_memory.md R87, R90, R91). -/
def State.writable (s : State) (a : Word) : Bool :=
  match s.region a with
  | .display => s.displayAttached
  | .wram => true
  | .rom => false
  | .unmapped => false

/-! ### The display surface's cells (20_memory.md R72) -/

/-- DISP[c]: bits 7:0 are the byte at DISPLAY_BASE + 2c, bits 15:8 the byte after it. -/
def State.dispCell (s : State) (c : Nat) : Half :=
  (s.mem.get (s.cfg.displayBase + 2 * c + 1) ++ s.mem.get (s.cfg.displayBase + 2 * c) : BitVec 16)

/-- DISP[c] <- v. -/
def State.setDispCell (s : State) (c : Nat) (v : Half) : State :=
  { s with
    mem := (s.mem.set (s.cfg.displayBase + 2 * c) (v.extractLsb' 0 8)).set (s.cfg.displayBase + 2 * c + 1)
      (v.extractLsb' 8 8) }

/-! ### Read and write primitives -/

/-- `ReadByte(a)` (20_memory.md R78 to R84; 0 for an unattached image is decision D20, assumption 23; 0xFF past the image
inside the window is R82, assumption 26). -/
def State.readByte (s : State) (a : Word) : Byte :=
  match s.region a with
  | .display =>
    let o := a.toNat - s.cfg.displayBase
    let cell := s.dispCell (o / 2)
    if s.displayAttached then (if o % 2 = 0 then cell.extractLsb' 0 8 else cell.extractLsb' 8 8) else 0
  | .rom => if s.romAttached then s.img[a.toNat - s.cfg.romBase]?.getD 0xFF else 0
  | .wram => s.mem.get a.toNat
  | .unmapped => 0

/-- `WriteByte(a, b)` (20_memory.md R87 to R91): a display byte patches its half of the cell; a write to the program
image, to an unmapped address or to an unattached display has no effect. -/
def State.writeByte (s : State) (a : Word) (b : Byte) : State :=
  match s.region a with
  | .display =>
    let o := a.toNat - s.cfg.displayBase
    let cell := s.dispCell (o / 2)
    if s.displayAttached then
      s.setDispCell (o / 2)
        (if o % 2 = 0 then (cell.extractLsb' 8 8 ++ b : BitVec 16) else (b ++ cell.extractLsb' 0 8 : BitVec 16))
    else s
  | .rom => s
  | .wram => { s with mem := s.mem.set a.toNat b }
  | .unmapped => s

/-- `MemRead(a, n)`, zero-extended to 32 bits: byte k of the result is the byte at (a + k) mod 2^32 (20_memory.md R85;
the terms of its sum have no bit in common, so the sum is an OR). The core uses n = 1, 2 and 4 (R95). -/
def State.memRead (s : State) (a : Word) : Nat → Word
  | 0 => 0
  | n + 1 => s.memRead a n ||| ((s.readByte (a + BitVec.ofNat 32 n)).setWidth 32 <<< (8 * n))

/-- `MemWrite(a, n, v)`: byte k of `v` goes to (a + k) mod 2^32 (20_memory.md R92). Each byte is routed on its own
(R75; assumption 19), and a misaligned address is used as it is (R94; assumption 18). -/
def State.memWrite (s : State) (a : Word) : Nat → Word → State
  | 0, _ => s
  | n + 1, v => (s.memWrite a n v).writeByte (a + BitVec.ofNat 32 n) (v.extractLsb' (8 * n) 8)

end Sys2Proof.Machine
end

