-- ==== Sys2Proof/Machine/Operands.lean ====
section
/-! DEFINITION. Every operand form of the instruction rules: immediates, register shift amounts, effective addresses and
pc-relative addresses (30_encoding.md R122, R123). In a meaning, the pc of the state holds pcn (00_scope.md R15). -/

namespace Sys2Proof.Machine

/-- The fixed parameter IMM_SHIFT_ZERO_AS_32 (00_scope.md R6; decision D5, assumption 10). -/
def immShiftZeroAs32 : Bool := false

/-- The fixed parameter REG_SHIFT_AMOUNT_BITS (00_scope.md R6; decision D7, assumption 12). -/
def regShiftAmountBits : Nat := 8

/-- The amount of an immediate right shift: the field as given, 0 being no shift (40_shift_immediate.md; the switch would
re-read 0 as 32). -/
def rightShiftAmount (amt : Nat) : Nat := if immShiftZeroAs32 && amt == 0 then 32 else amt

/-- The amount of a register shift: the low byte of x[Rs] (42_register_alu.md R160). -/
def regShiftAmount (b : Word) : Nat := b.toNat % 2 ^ regShiftAmountBits

/-- An unsigned immediate or offset as a 32-bit value (zext_32, 30_encoding.md R122). -/
def immWord (imm : Nat) : Word := BitVec.ofNat 32 imm

/-- The effective address of G5 and G6: (x[Rb] + off) mod 2^32, unchanged on its way to the bus (43_load_store.md R190). -/
def State.baseAddr (s : State) (rb : LoReg) (off : Nat) : Word := s.lo rb + immWord off

/-- The address of G4 and G7: ((pcn AND 0xFFFFFFFD) + off) mod 2^32 (43_load_store.md R191, 44_address_formation.md R210). -/
def State.pcRelAddr (s : State) (off : Nat) : Word := (s.pc &&& 0xFFFFFFFD) + immWord off

/-- The target of G8 and G9: (pcn + off) mod 2^32, bit 1 of pcn kept (45_branch.md R220; decision D17, assumption 21). -/
def State.branchTarget (s : State) (off : Int) : Word := s.pc + BitVec.ofInt 32 off

end Sys2Proof.Machine
end

