-- ==== Sys2Proof/Machine/Address.lean ====
section
/-! DEFINITION. Group G7: pc-relative address formation (44_address_formation.md). -/

namespace Sys2Proof.Machine

/-- ADR (R210): no memory access, no flags. -/
def execAdr (rd : LoReg) (off : Nat) (s : State) : Result := .next (s.setLo rd (s.pcRelAddr off))

end Sys2Proof.Machine
end

