-- ==== Sys2Proof/Machine/Flags.lean ====
section
/-! DEFINITION. The status word's flags, the four flag-update policies, the shift primitive, the adder and the condition
evaluator (10_state.md sections 3 to 5). -/

namespace Sys2Proof.Machine

/-! ### Flags in the status word (10_state.md R36) -/

def State.flagN (s : State) : Bool := s.sw.getLsbD 31
def State.flagZ (s : State) : Bool := s.sw.getLsbD 30
def State.flagC (s : State) : Bool := s.sw.getLsbD 29
def State.flagV (s : State) : Bool := s.sw.getLsbD 28

/-- T, the compact-encoding state bit. No instruction reads or writes it (10_state.md R37). -/
def State.flagT (s : State) : Bool := s.sw.getLsbD 5

/-- The four flags together. -/
def State.nzcv (s : State) : NZCV := ⟨s.flagN, s.flagZ, s.flagC, s.flagV⟩

/-- Writing the four flags: bits 27:0 of SW keep their values (10_state.md R36). -/
def State.setNZCV (s : State) (f : NZCV) : State :=
  { s with
    sw := (BitVec.ofBool f.n ++ BitVec.ofBool f.z ++ BitVec.ofBool f.c ++ BitVec.ofBool f.v ++
      s.sw.extractLsb' 0 28 : BitVec 32) }

/-! ### Addition and subtraction (10_state.md R40, R41) -/

/-- The exact sum u(a) + u(b) + bool(cin). -/
def exactSum (a b : Word) (cin : Bool) : Nat := a.toNat + b.toNat + cin.toNat

/-- The result of `AddWithCarry(a, b, cin)`: the exact sum modulo 2^32. -/
def addWithCarry (a b : Word) (cin : Bool) : Word := BitVec.ofNat 32 (exactSum a b cin)

/-- The flags of SetAdd: C when the exact sum exceeds 32 bits, V when the operands' signs agree and the result's differs. -/
def addFlags (a b : Word) (cin : Bool) : NZCV :=
  let r := addWithCarry a b cin
  { n := r.msb, z := r == 0#32, c := decide (0xFFFFFFFF < exactSum a b cin), v := a.msb == b.msb && r.msb != a.msb }

/-- The effective subtrahend u(b) + (1 - bool(cin)), without a 32-bit wrap (10_state.md R41; decision D11, assumption 15). -/
def effectiveSubtrahend (b : Word) (cin : Bool) : Nat := b.toNat + (1 - cin.toNat)

/-- The result of `SubWithBorrow(a, b, cin)`: the exact difference modulo 2^32. -/
def subWithBorrow (a b : Word) (cin : Bool) : Word := BitVec.ofInt 32 ((a.toNat : Int) - effectiveSubtrahend b cin)

/-- The flags of SetSub: C when there is no borrow, V when the operands' signs differ and the result's differs from the
minuend's. -/
def subFlags (a b : Word) (cin : Bool) : NZCV :=
  let r := subWithBorrow a b cin
  { n := r.msb, z := r == 0#32, c := decide (effectiveSubtrahend b cin ≤ a.toNat), v := a.msb != b.msb && r.msb != a.msb }

/-! ### The flag-update policies (10_state.md R38 to R42) -/

/-- SetLogical(r, cout): N and Z from the result, C the carry-out it is given, V unchanged (R39). -/
def State.setLogical (s : State) (r : Word) (cout : Bool) : State :=
  s.setNZCV { n := r.msb, z := r == 0#32, c := cout, v := s.flagV }

/-- SetAdd for AddWithCarry(a, b, cin) (R40). -/
def State.setAdd (s : State) (a b : Word) (cin : Bool) : State := s.setNZCV (addFlags a b cin)

/-- SetSub for SubWithBorrow(a, b, cin) (R41). -/
def State.setSub (s : State) (a b : Word) (cin : Bool) : State := s.setNZCV (subFlags a b cin)

/-- SetMul(r): N and Z from the product, C and V cleared (R42). -/
def State.setMul (s : State) (r : Word) : State :=
  s.setNZCV { n := r.msb, z := r == 0#32, c := false, v := false }

/-! ### The shift primitive (10_state.md R44 to R49) -/

/-- The direction of a shift. -/
inductive ShiftKind where
  | lsl
  | lsr
  | asr
  | ror
  deriving DecidableEq, Repr

/-- Shift(LSL, v, amt, cin): result and carry-out. -/
def shiftLsl (v : Word) (amt : Nat) (cin : Bool) : Word × Bool :=
  if amt = 0 then (v, cin)
  else if amt ≤ 31 then (v <<< amt, v.getLsbD (32 - amt))
  else if amt = 32 then (0, v.getLsbD 0)
  else (0, false)

/-- Shift(LSR, v, amt, cin). -/
def shiftLsr (v : Word) (amt : Nat) (cin : Bool) : Word × Bool :=
  if amt = 0 then (v, cin)
  else if amt ≤ 31 then (v >>> amt, v.getLsbD (amt - 1))
  else if amt = 32 then (0, v.getLsbD 31)
  else (0, false)

/-- Shift(ASR, v, amt, cin): from 32 on, the sign fills the result and is the carry-out. -/
def shiftAsr (v : Word) (amt : Nat) (cin : Bool) : Word × Bool :=
  if amt = 0 then (v, cin)
  else if amt ≤ 31 then ((v.signExtend 64 >>> amt).extractLsb' 0 32, v.getLsbD (amt - 1))
  else (if v.getLsbD 31 then 0xFFFFFFFF else 0, v.getLsbD 31)

/-- Shift(ROR, v, amt, cin): the amount is taken modulo 32 first (10_state.md R49). -/
def shiftRor (v : Word) (amt : Nat) (cin : Bool) : Word × Bool :=
  if amt % 32 = 0 then (v, cin)
  else ((v >>> (amt % 32)) ||| (v <<< (32 - amt % 32)), v.getLsbD (amt % 32 - 1))

/-- `Shift(kind, v, amt, cin) -> (res, cout)` (10_state.md R44). -/
def shift (kind : ShiftKind) (v : Word) (amt : Nat) (cin : Bool) : Word × Bool :=
  match kind with
  | .lsl => shiftLsl v amt cin
  | .lsr => shiftLsr v amt cin
  | .asr => shiftAsr v amt cin
  | .ror => shiftRor v amt cin

/-! ### The condition evaluator (10_state.md R50) -/

/-- The fourteen conditions, codes 0x0 to 0xD in this order. -/
inductive Cond where
  | eq | ne | cs | cc | mi | pl | vs | vc | hi | ls | ge | lt | gt | le
  deriving DecidableEq, Repr

/-- `CondPassed(cc)`: reads the four flags and writes nothing. The table is ARM's (decision D18; assumption 8). -/
def condPassed (cond : Cond) (f : NZCV) : Bool :=
  match cond with
  | .eq => f.z
  | .ne => !f.z
  | .cs => f.c
  | .cc => !f.c
  | .mi => f.n
  | .pl => !f.n
  | .vs => f.v
  | .vc => !f.v
  | .hi => f.c && !f.z
  | .ls => !f.c || f.z
  | .ge => f.n == f.v
  | .lt => f.n != f.v
  | .gt => !f.z && f.n == f.v
  | .le => f.z || f.n != f.v

end Sys2Proof.Machine
end

