-- ==== Sys2Proof/Machine/Branch.lean ====
section
/-! DEFINITION. Groups G8 and G9: conditional branches, SWI and the unconditional branch (45_branch.md). No branch writes
a flag or x[14], and there is no delay slot (R220). -/

namespace Sys2Proof.Machine

/-- Taken: pc <- target. Not taken: pc stays pcn (R220). -/
def branchIf (taken : Bool) (off : Int) (s : State) : Result :=
  .next (if taken then s.setPc (s.branchTarget off) else s)

/-- BEQ: Z (R221, 10_state.md R50). -/
def execBeq (off : Int) (s : State) : Result := branchIf (condPassed .eq s.nzcv) off s

/-- BNE: not Z (R221, 10_state.md R50). -/
def execBne (off : Int) (s : State) : Result := branchIf (condPassed .ne s.nzcv) off s

/-- BCS: C (R221, 10_state.md R50). -/
def execBcs (off : Int) (s : State) : Result := branchIf (condPassed .cs s.nzcv) off s

/-- BCC: not C (R221, 10_state.md R50). -/
def execBcc (off : Int) (s : State) : Result := branchIf (condPassed .cc s.nzcv) off s

/-- BMI: N (R221, 10_state.md R50). -/
def execBmi (off : Int) (s : State) : Result := branchIf (condPassed .mi s.nzcv) off s

/-- BPL: not N (R221, 10_state.md R50). -/
def execBpl (off : Int) (s : State) : Result := branchIf (condPassed .pl s.nzcv) off s

/-- BVS: V (R221, 10_state.md R50). -/
def execBvs (off : Int) (s : State) : Result := branchIf (condPassed .vs s.nzcv) off s

/-- BVC: not V (R221, 10_state.md R50). -/
def execBvc (off : Int) (s : State) : Result := branchIf (condPassed .vc s.nzcv) off s

/-- BHI: C and not Z (R221, 10_state.md R50). -/
def execBhi (off : Int) (s : State) : Result := branchIf (condPassed .hi s.nzcv) off s

/-- BLS: not C or Z (R221, 10_state.md R50). -/
def execBls (off : Int) (s : State) : Result := branchIf (condPassed .ls s.nzcv) off s

/-- BGE: N = V (R221, 10_state.md R50). -/
def execBge (off : Int) (s : State) : Result := branchIf (condPassed .ge s.nzcv) off s

/-- BLT: N differs from V (R221, 10_state.md R50). -/
def execBlt (off : Int) (s : State) : Result := branchIf (condPassed .lt s.nzcv) off s

/-- BGT: not Z and N = V (R221, 10_state.md R50). -/
def execBgt (off : Int) (s : State) : Result := branchIf (condPassed .gt s.nzcv) off s

/-- BLE: Z or N differs from V (R221, 10_state.md R50). -/
def execBle (off : Int) (s : State) : Result := branchIf (condPassed .le s.nzcv) off s

/-- B_COND_E (R222): taken exactly when the machine's parameter COND_E_TAKEN says so (decision D16; assumption 3). -/
def execBCondE (off : Int) (s : State) : Result := branchIf s.cfg.condETaken off s

/-- SWI (R223): recognized but not acted upon; the comment is ignored and the pc stays pcn. -/
def execSwi (_comment : Nat) (s : State) : Result := .next s

/-- B (R224). -/
def execB (off : Int) (s : State) : Result := branchIf true off s

end Sys2Proof.Machine
end

