-- ==== Sys2Proof/Machine/ImmAlu.lean ====
section
/-! DEFINITION. Group G2: MOV, CMP, ADD and SUB with an 8-bit immediate (41_immediate_alu.md). -/

namespace Sys2Proof.Machine

/-- MOV_imm (R150): C and V keep their values (decision D9; assumption 13). -/
def execMovImm (rd : LoReg) (imm : Nat) (s : State) : Result :=
  .next ((s.setLo rd (immWord imm)).setLogical (immWord imm) s.flagC)

/-- CMP_imm (R151): no register is written. -/
def execCmpImm (rd : LoReg) (imm : Nat) (s : State) : Result := .next (s.setSub (s.lo rd) (immWord imm) true)

/-- ADD_imm (R152). -/
def execAddImm (rd : LoReg) (imm : Nat) (s : State) : Result :=
  .next ((s.setLo rd (addWithCarry (s.lo rd) (immWord imm) false)).setAdd (s.lo rd) (immWord imm) false)

/-- SUB_imm (R153). -/
def execSubImm (rd : LoReg) (imm : Nat) (s : State) : Result :=
  .next ((s.setLo rd (subWithBorrow (s.lo rd) (immWord imm) true)).setSub (s.lo rd) (immWord imm) true)

end Sys2Proof.Machine
end

