-- ==== Sys2Proof/Machine/LoadStore.lean ====
section
/-! DEFINITION. Groups G4, G5 and G6: loads and stores (43_load_store.md). One bus access each, no flags, no base
write-back, no fault (R190); byte and halfword loads zero-extend (decision D12; assumption 17). -/

namespace Sys2Proof.Machine

/-- A load of `n` bytes at `a` into Rd. -/
def loadInto (rd : LoReg) (a : Word) (n : Nat) (s : State) : Result := .next (s.setLo rd (s.memRead a n))

/-- LDR_lit (R191). -/
def execLdrLit (rd : LoReg) (off : Nat) (s : State) : Result := loadInto rd (s.pcRelAddr off) 4 s

/-- STR (R192). -/
def execStr (rd rb : LoReg) (off : Nat) (s : State) : Result := .next (s.memWrite (s.baseAddr rb off) 4 (s.lo rd))

/-- LDR (R193). -/
def execLdr (rd rb : LoReg) (off : Nat) (s : State) : Result := loadInto rd (s.baseAddr rb off) 4 s

/-- STRB (R194). -/
def execStrb (rd rb : LoReg) (off : Nat) (s : State) : Result := .next (s.memWrite (s.baseAddr rb off) 1 (s.lo rd))

/-- LDRB (R195). -/
def execLdrb (rd rb : LoReg) (off : Nat) (s : State) : Result := loadInto rd (s.baseAddr rb off) 1 s

/-- STRH (R196). -/
def execStrh (rd rb : LoReg) (off : Nat) (s : State) : Result := .next (s.memWrite (s.baseAddr rb off) 2 (s.lo rd))

/-- LDRH (R197). -/
def execLdrh (rd rb : LoReg) (off : Nat) (s : State) : Result := loadInto rd (s.baseAddr rb off) 2 s

end Sys2Proof.Machine
end

