-- ==== Sys2Proof/Machine/ShiftImm.lean ====
section
/-! DEFINITION. Group G1: LSL, LSR and ASR by an immediate (40_shift_immediate.md). Their flags follow SetLogical with
the shifter carry-out (decision D6; assumption 11). -/

namespace Sys2Proof.Machine

/-- The shared form of every shift instruction: Rd <- result, SetLogical(result, carry-out). -/
def shiftInto (kind : ShiftKind) (rd : LoReg) (v : Word) (amt : Nat) (s : State) : Result :=
  let r := shift kind v amt s.flagC
  .next ((s.setLo rd r.1).setLogical r.1 r.2)

/-- LSL_imm (R140). -/
def execLslImm (rd rs : LoReg) (amt : Nat) (s : State) : Result := shiftInto .lsl rd (s.lo rs) amt s

/-- LSR_imm (R141). -/
def execLsrImm (rd rs : LoReg) (amt : Nat) (s : State) : Result := shiftInto .lsr rd (s.lo rs) (rightShiftAmount amt) s

/-- ASR_imm (R142). -/
def execAsrImm (rd rs : LoReg) (amt : Nat) (s : State) : Result := shiftInto .asr rd (s.lo rs) (rightShiftAmount amt) s

end Sys2Proof.Machine
end

