-- ==== Sys2Proof/Machine/RegAlu.lean ====
section
/-! DEFINITION. Group G3: the sixteen two-register operations (42_register_alu.md). a is x[Rd], b is x[Rs], both read
before anything is written (R160). -/

namespace Sys2Proof.Machine

/-- The shared form of the logical operations: Rd <- r, SetLogical(r, C), so C keeps its value (decision D8;
assumption 13). -/
def logicalInto (rd : LoReg) (r : Word) (s : State) : Result := .next ((s.setLo rd r).setLogical r s.flagC)

/-- AND (R161). -/
def execAnd (rd rs : LoReg) (s : State) : Result := logicalInto rd (s.lo rd &&& s.lo rs) s

/-- EOR (R162). -/
def execEor (rd rs : LoReg) (s : State) : Result := logicalInto rd (s.lo rd ^^^ s.lo rs) s

/-- LSL_reg (R163). -/
def execLslReg (rd rs : LoReg) (s : State) : Result := shiftInto .lsl rd (s.lo rd) (regShiftAmount (s.lo rs)) s

/-- LSR_reg (R164). -/
def execLsrReg (rd rs : LoReg) (s : State) : Result := shiftInto .lsr rd (s.lo rd) (regShiftAmount (s.lo rs)) s

/-- ASR_reg (R165). -/
def execAsrReg (rd rs : LoReg) (s : State) : Result := shiftInto .asr rd (s.lo rd) (regShiftAmount (s.lo rs)) s

/-- ADC (R166). -/
def execAdc (rd rs : LoReg) (s : State) : Result :=
  .next ((s.setLo rd (addWithCarry (s.lo rd) (s.lo rs) s.flagC)).setAdd (s.lo rd) (s.lo rs) s.flagC)

/-- SBC (R167). -/
def execSbc (rd rs : LoReg) (s : State) : Result :=
  .next ((s.setLo rd (subWithBorrow (s.lo rd) (s.lo rs) s.flagC)).setSub (s.lo rd) (s.lo rs) s.flagC)

/-- ROR_reg (R168). -/
def execRorReg (rd rs : LoReg) (s : State) : Result := shiftInto .ror rd (s.lo rd) (regShiftAmount (s.lo rs)) s

/-- TST (R169): no register is written. -/
def execTst (rd rs : LoReg) (s : State) : Result := .next (s.setLogical (s.lo rd &&& s.lo rs) s.flagC)

/-- NEG (R170): AddWithCarry(0, NOT b, 1) (decision D10; assumption 14). -/
def execNeg (rd rs : LoReg) (s : State) : Result :=
  .next ((s.setLo rd (addWithCarry 0 (~~~ s.lo rs) true)).setAdd 0 (~~~ s.lo rs) true)

/-- CMP_reg (R171): no register is written. -/
def execCmpReg (rd rs : LoReg) (s : State) : Result := .next (s.setSub (s.lo rd) (s.lo rs) true)

/-- CMN (R172): no register is written. -/
def execCmn (rd rs : LoReg) (s : State) : Result := .next (s.setAdd (s.lo rd) (s.lo rs) false)

/-- ORR (R173). -/
def execOrr (rd rs : LoReg) (s : State) : Result := logicalInto rd (s.lo rd ||| s.lo rs) s

/-- MUL (R174): the low 32 bits of the product (decision D30; assumption 16). -/
def execMul (rd rs : LoReg) (s : State) : Result :=
  .next ((s.setLo rd (s.lo rd * s.lo rs)).setMul (s.lo rd * s.lo rs))

/-- BIC (R175). -/
def execBic (rd rs : LoReg) (s : State) : Result := logicalInto rd (s.lo rd &&& ~~~ s.lo rs) s

/-- MVN (R176). -/
def execMvn (rd rs : LoReg) (s : State) : Result := logicalInto rd (~~~ s.lo rs) s

end Sys2Proof.Machine
end

