-- ==== Sys2Proof/Machine/Unrecognized.lean ====
section
/-! DEFINITION. Unrecognized words, classes U1 to U9: the deliberate no-op (46_unrecognized.md R240 to R242). Which words
these are is decision D19 (30_encoding.md R125; assumption 22). -/

namespace Sys2Proof.Machine

/-- UNREC: nothing happens beyond the advance that the step has already made (R240). -/
def unrecognized (s : State) : Result := .next s

/-- UNREC_U1 (R240). -/
def execUnrecU1 (_bits : BitVec 11) (s : State) : Result := unrecognized s

/-- UNREC_U2 (R240). -/
def execUnrecU2 (_bits : BitVec 10) (s : State) : Result := unrecognized s

/-- UNREC_U3 (R240). -/
def execUnrecU3 (_bits : BitVec 12) (s : State) : Result := unrecognized s

/-- UNREC_U4 (R240). -/
def execUnrecU4 (_bits : BitVec 12) (s : State) : Result := unrecognized s

/-- UNREC_U5 (R240). -/
def execUnrecU5 (_bits : BitVec 11) (s : State) : Result := unrecognized s

/-- UNREC_U6 (R240). -/
def execUnrecU6 (_bits : BitVec 12) (s : State) : Result := unrecognized s

/-- UNREC_U7 (R240). -/
def execUnrecU7 (_bits : BitVec 12) (s : State) : Result := unrecognized s

/-- UNREC_U8 (R240). -/
def execUnrecU8 (_bits : BitVec 11) (s : State) : Result := unrecognized s

/-- UNREC_U9 (R240). -/
def execUnrecU9 (_bits : BitVec 12) (s : State) : Result := unrecognized s

end Sys2Proof.Machine
end

