-- ==== Sys2Proof/Syntax.lean ====
section
/-! DEFINITION. The instructions of CORE: one constructor for each row of spec/opcode_table.json, in the table's order.
Immediates stand scaled, as the assembler syntax writes them (30_encoding.md R122, R128): a load or store carries its
byte offset, a branch its signed byte offset from pcn. An unrecognized word keeps the bits its row leaves free, so that
each of the 65536 words is exactly one well-formed instruction (assumption 29). -/

namespace Sys2Proof

/-- The 57 rows of the opcode table (30_encoding.md R124, R125). -/
inductive Instr where
  -- G1, format SHI (40_shift_immediate.md)
  | lslImm (rd rs : LoReg) (amt : Nat)
  | lsrImm (rd rs : LoReg) (amt : Nat)
  | asrImm (rd rs : LoReg) (amt : Nat)
  | unrecU1 (bits : BitVec 11)
  -- G2, format IMM (41_immediate_alu.md)
  | movImm (rd : LoReg) (imm : Nat)
  | cmpImm (rd : LoReg) (imm : Nat)
  | addImm (rd : LoReg) (imm : Nat)
  | subImm (rd : LoReg) (imm : Nat)
  -- G3, format ALU (42_register_alu.md)
  | and (rd rs : LoReg)
  | eor (rd rs : LoReg)
  | lslReg (rd rs : LoReg)
  | lsrReg (rd rs : LoReg)
  | asrReg (rd rs : LoReg)
  | adc (rd rs : LoReg)
  | sbc (rd rs : LoReg)
  | rorReg (rd rs : LoReg)
  | tst (rd rs : LoReg)
  | neg (rd rs : LoReg)
  | cmpReg (rd rs : LoReg)
  | cmn (rd rs : LoReg)
  | orr (rd rs : LoReg)
  | mul (rd rs : LoReg)
  | bic (rd rs : LoReg)
  | mvn (rd rs : LoReg)
  | unrecU2 (bits : BitVec 10)
  -- G4, format LIT (43_load_store.md)
  | ldrLit (rd : LoReg) (off : Nat)
  | unrecU3 (bits : BitVec 12)
  -- G5, format LSI, and G6, format LSH (43_load_store.md)
  | str (rd rb : LoReg) (off : Nat)
  | ldr (rd rb : LoReg) (off : Nat)
  | strb (rd rb : LoReg) (off : Nat)
  | ldrb (rd rb : LoReg) (off : Nat)
  | strh (rd rb : LoReg) (off : Nat)
  | ldrh (rd rb : LoReg) (off : Nat)
  | unrecU4 (bits : BitVec 12)
  -- G7, format ADR (44_address_formation.md)
  | adr (rd : LoReg) (off : Nat)
  | unrecU5 (bits : BitVec 11)
  | unrecU6 (bits : BitVec 12)
  | unrecU7 (bits : BitVec 12)
  -- G8, formats BCC and SWI (45_branch.md)
  | beq (off : Int)
  | bne (off : Int)
  | bcs (off : Int)
  | bcc (off : Int)
  | bmi (off : Int)
  | bpl (off : Int)
  | bvs (off : Int)
  | bvc (off : Int)
  | bhi (off : Int)
  | bls (off : Int)
  | bge (off : Int)
  | blt (off : Int)
  | bgt (off : Int)
  | ble (off : Int)
  | bCondE (off : Int)
  | swi (comment : Nat)
  -- G9, format B (45_branch.md)
  | b (off : Int)
  | unrecU8 (bits : BitVec 11)
  | unrecU9 (bits : BitVec 12)
  deriving DecidableEq, Repr

end Sys2Proof
end

