-- ==== Sys2Proof/Machine/Dispatch.lean ====
section
/-! DEFINITION. Execute: one arm per instruction, each one call of its meaning. The state it is given has pc = pcn
(70_reset_and_hazards.md R276). -/

namespace Sys2Proof.Machine

def exec (i : Instr) (s : State) : Host.Outcome State Fault Refusal :=
  match i with
  | .lslImm rd rs amt => Sys2Proof.Machine.execLslImm rd rs amt s
  | .lsrImm rd rs amt => Sys2Proof.Machine.execLsrImm rd rs amt s
  | .asrImm rd rs amt => Sys2Proof.Machine.execAsrImm rd rs amt s
  | .unrecU1 bits => Sys2Proof.Machine.execUnrecU1 bits s
  | .movImm rd imm => Sys2Proof.Machine.execMovImm rd imm s
  | .cmpImm rd imm => Sys2Proof.Machine.execCmpImm rd imm s
  | .addImm rd imm => Sys2Proof.Machine.execAddImm rd imm s
  | .subImm rd imm => Sys2Proof.Machine.execSubImm rd imm s
  | .and rd rs => Sys2Proof.Machine.execAnd rd rs s
  | .eor rd rs => Sys2Proof.Machine.execEor rd rs s
  | .lslReg rd rs => Sys2Proof.Machine.execLslReg rd rs s
  | .lsrReg rd rs => Sys2Proof.Machine.execLsrReg rd rs s
  | .asrReg rd rs => Sys2Proof.Machine.execAsrReg rd rs s
  | .adc rd rs => Sys2Proof.Machine.execAdc rd rs s
  | .sbc rd rs => Sys2Proof.Machine.execSbc rd rs s
  | .rorReg rd rs => Sys2Proof.Machine.execRorReg rd rs s
  | .tst rd rs => Sys2Proof.Machine.execTst rd rs s
  | .neg rd rs => Sys2Proof.Machine.execNeg rd rs s
  | .cmpReg rd rs => Sys2Proof.Machine.execCmpReg rd rs s
  | .cmn rd rs => Sys2Proof.Machine.execCmn rd rs s
  | .orr rd rs => Sys2Proof.Machine.execOrr rd rs s
  | .mul rd rs => Sys2Proof.Machine.execMul rd rs s
  | .bic rd rs => Sys2Proof.Machine.execBic rd rs s
  | .mvn rd rs => Sys2Proof.Machine.execMvn rd rs s
  | .unrecU2 bits => Sys2Proof.Machine.execUnrecU2 bits s
  | .ldrLit rd off => Sys2Proof.Machine.execLdrLit rd off s
  | .unrecU3 bits => Sys2Proof.Machine.execUnrecU3 bits s
  | .str rd rb off => Sys2Proof.Machine.execStr rd rb off s
  | .ldr rd rb off => Sys2Proof.Machine.execLdr rd rb off s
  | .strb rd rb off => Sys2Proof.Machine.execStrb rd rb off s
  | .ldrb rd rb off => Sys2Proof.Machine.execLdrb rd rb off s
  | .strh rd rb off => Sys2Proof.Machine.execStrh rd rb off s
  | .ldrh rd rb off => Sys2Proof.Machine.execLdrh rd rb off s
  | .unrecU4 bits => Sys2Proof.Machine.execUnrecU4 bits s
  | .adr rd off => Sys2Proof.Machine.execAdr rd off s
  | .unrecU5 bits => Sys2Proof.Machine.execUnrecU5 bits s
  | .unrecU6 bits => Sys2Proof.Machine.execUnrecU6 bits s
  | .unrecU7 bits => Sys2Proof.Machine.execUnrecU7 bits s
  | .beq off => Sys2Proof.Machine.execBeq off s
  | .bne off => Sys2Proof.Machine.execBne off s
  | .bcs off => Sys2Proof.Machine.execBcs off s
  | .bcc off => Sys2Proof.Machine.execBcc off s
  | .bmi off => Sys2Proof.Machine.execBmi off s
  | .bpl off => Sys2Proof.Machine.execBpl off s
  | .bvs off => Sys2Proof.Machine.execBvs off s
  | .bvc off => Sys2Proof.Machine.execBvc off s
  | .bhi off => Sys2Proof.Machine.execBhi off s
  | .bls off => Sys2Proof.Machine.execBls off s
  | .bge off => Sys2Proof.Machine.execBge off s
  | .blt off => Sys2Proof.Machine.execBlt off s
  | .bgt off => Sys2Proof.Machine.execBgt off s
  | .ble off => Sys2Proof.Machine.execBle off s
  | .bCondE off => Sys2Proof.Machine.execBCondE off s
  | .swi comment => Sys2Proof.Machine.execSwi comment s
  | .b off => Sys2Proof.Machine.execB off s
  | .unrecU8 bits => Sys2Proof.Machine.execUnrecU8 bits s
  | .unrecU9 bits => Sys2Proof.Machine.execUnrecU9 bits s

end Sys2Proof.Machine
end

