-- ==== Sys2Proof/WellFormed.lean ====
section
/-! DEFINITION. Which terms of the syntax are instructions of CORE: each immediate lies in the range, and on the step,
that its field can hold (30_encoding.md R122). Register operands cannot be out of range: `LoReg` is x[0] to x[7]
(R123). -/

namespace Sys2Proof

/-- An unsigned field of `bits` bits scaled by `scale`: a multiple of `scale` below 2^bits * scale. -/
abbrev uImmOk (bits scale off : Nat) : Bool := off % scale == 0 && off < 2 ^ bits * scale

/-- A signed field of `bits + 1` bits scaled by 2: even, from -2^bits * 2 up to (2^bits - 1) * 2. -/
abbrev branchOffOk (bits : Nat) (off : Int) : Bool :=
  off % 2 == 0 && decide (-((2 : Int) ^ bits * 2) ≤ off) && decide (off < (2 : Int) ^ bits * 2)

/-- The ranges of 30_encoding.md R122, group by group. -/
def Instr.wellFormed : Instr → Bool
  | .lslImm _ _ amt | .lsrImm _ _ amt | .asrImm _ _ amt => uImmOk 5 1 amt
  | .movImm _ imm | .cmpImm _ imm | .addImm _ imm | .subImm _ imm => uImmOk 8 1 imm
  | .and _ _ | .eor _ _ | .lslReg _ _ | .lsrReg _ _ | .asrReg _ _ | .adc _ _ | .sbc _ _ | .rorReg _ _
  | .tst _ _ | .neg _ _ | .cmpReg _ _ | .cmn _ _ | .orr _ _ | .mul _ _ | .bic _ _ | .mvn _ _ => true
  | .ldrLit _ off | .adr _ off => uImmOk 8 4 off
  | .str _ _ off | .ldr _ _ off => uImmOk 5 4 off
  | .strb _ _ off | .ldrb _ _ off => uImmOk 5 1 off
  | .strh _ _ off | .ldrh _ _ off => uImmOk 5 2 off
  | .beq off | .bne off | .bcs off | .bcc off | .bmi off | .bpl off | .bvs off | .bvc off
  | .bhi off | .bls off | .bge off | .blt off | .bgt off | .ble off | .bCondE off => branchOffOk 7 off
  | .swi comment => uImmOk 8 1 comment
  | .b off => branchOffOk 10 off
  | .unrecU1 _ | .unrecU2 _ | .unrecU3 _ | .unrecU4 _ | .unrecU5 _ | .unrecU6 _ | .unrecU7 _
  | .unrecU8 _ | .unrecU9 _ => true

end Sys2Proof
end

