-- ==== Sys2Proof/Decode.lean ====
section
/-! DEFINITION. The decoder, total on all 65536 words (30_encoding.md R124, R127), the encoder written from the same
formats (R112 to R121), and the rows of the opcode table as masks and matches. The bit positions are the spec's own
choice from general knowledge (92_eei_decisions.md D1; assumption 7). -/

namespace Sys2Proof

/-- The unsigned value of the `len` bits of `w` from bit `lo` up: inst[lo+len-1 : lo] (00_scope.md R9). -/
def natField (w : Half) (lo len : Nat) : Nat := (w.extractLsb' lo len).toNat

/-- The signed value of the same field, for the branch offsets (30_encoding.md R122). -/
def intField (w : Half) (lo len : Nat) : Int := (w.extractLsb' lo len).toInt

/-- The 3-bit register field at bit `lo` (30_encoding.md R123). -/
def regField (w : Half) (lo : Nat) : LoReg := (w.extractLsb' lo 3).toFin

/-- Group G3: the sub-operation field selects one of sixteen (30_encoding.md R114); 0xF, the last, is MVN. -/
def decodeAlu (op : Nat) (rd rs : LoReg) : Instr :=
  match op with
  | 0x0 => .and rd rs
  | 0x1 => .eor rd rs
  | 0x2 => .lslReg rd rs
  | 0x3 => .lsrReg rd rs
  | 0x4 => .asrReg rd rs
  | 0x5 => .adc rd rs
  | 0x6 => .sbc rd rs
  | 0x7 => .rorReg rd rs
  | 0x8 => .tst rd rs
  | 0x9 => .neg rd rs
  | 0xA => .cmpReg rd rs
  | 0xB => .cmn rd rs
  | 0xC => .orr rd rs
  | 0xD => .mul rd rs
  | 0xE => .bic rd rs
  | _ => .mvn rd rs

/-- Group G8: the condition field (30_encoding.md R119, R120; the codes are 10_state.md R50, R51). 0xF is SWI, whose low
byte is a comment and not an offset. -/
def decodeCond (cond : Nat) (off : Int) (comment : Nat) : Instr :=
  match cond with
  | 0x0 => .beq off
  | 0x1 => .bne off
  | 0x2 => .bcs off
  | 0x3 => .bcc off
  | 0x4 => .bmi off
  | 0x5 => .bpl off
  | 0x6 => .bvs off
  | 0x7 => .bvc off
  | 0x8 => .bhi off
  | 0x9 => .bls off
  | 0xA => .bge off
  | 0xB => .blt off
  | 0xC => .bgt off
  | 0xD => .ble off
  | 0xE => .bCondE off
  | _ => .swi comment

/-- `Decode(inst)` of 30_encoding.md R124, laid out by the top five bits as in R127. Every word is some instruction: no
encoding is illegal (R126), and a word that would begin a 32-bit instruction elsewhere is class U8 or U9 (R111, R241). -/
def decodeWord (w : Half) : Instr :=
  match natField w 11 5 with
  | 0b00000 => .lslImm (regField w 0) (regField w 3) (natField w 6 5)
  | 0b00001 => .lsrImm (regField w 0) (regField w 3) (natField w 6 5)
  | 0b00010 => .asrImm (regField w 0) (regField w 3) (natField w 6 5)
  | 0b00011 => .unrecU1 (w.extractLsb' 0 11)
  | 0b00100 => .movImm (regField w 8) (natField w 0 8)
  | 0b00101 => .cmpImm (regField w 8) (natField w 0 8)
  | 0b00110 => .addImm (regField w 8) (natField w 0 8)
  | 0b00111 => .subImm (regField w 8) (natField w 0 8)
  | 0b01000 => if w.getLsbD 10 then .unrecU2 (w.extractLsb' 0 10) else decodeAlu (natField w 6 4) (regField w 0) (regField w 3)
  | 0b01001 => .ldrLit (regField w 8) (natField w 0 8 * 4)
  | 0b01010 | 0b01011 => .unrecU3 (w.extractLsb' 0 12)
  | 0b01100 => .str (regField w 0) (regField w 3) (natField w 6 5 * 4)
  | 0b01101 => .ldr (regField w 0) (regField w 3) (natField w 6 5 * 4)
  | 0b01110 => .strb (regField w 0) (regField w 3) (natField w 6 5)
  | 0b01111 => .ldrb (regField w 0) (regField w 3) (natField w 6 5)
  | 0b10000 => .strh (regField w 0) (regField w 3) (natField w 6 5 * 2)
  | 0b10001 => .ldrh (regField w 0) (regField w 3) (natField w 6 5 * 2)
  | 0b10010 | 0b10011 => .unrecU4 (w.extractLsb' 0 12)
  | 0b10100 => .adr (regField w 8) (natField w 0 8 * 4)
  | 0b10101 => .unrecU5 (w.extractLsb' 0 11)
  | 0b10110 | 0b10111 => .unrecU6 (w.extractLsb' 0 12)
  | 0b11000 | 0b11001 => .unrecU7 (w.extractLsb' 0 12)
  | 0b11010 | 0b11011 => decodeCond (natField w 8 4) (intField w 0 8 * 2) (natField w 0 8)
  | 0b11100 => .b (intField w 0 11 * 2)
  | 0b11101 => .unrecU8 (w.extractLsb' 0 11)
  | _ => .unrecU9 (w.extractLsb' 0 12)

/-- Why a byte sequence is not an instruction. -/
inductive DecodeError where
  /-- Fewer than the two bytes that every instruction has (30_encoding.md R110). Raised by `decodeBytes` alone: a step
  always fetches two bytes (70_reset_and_hazards.md R277). -/
  | truncated
  deriving DecidableEq, Repr

/-- Decoding from bytes: the first two are one little-endian word (20_memory.md R93), the rest is handed back. -/
def decodeBytes : List Byte → Except DecodeError (Instr × List Byte)
  | lo :: hi :: rest => .ok (decodeWord (hi ++ lo : BitVec 16), rest)
  | _ => .error .truncated

/-- The bytes of an instruction word as the hardware stores them, low byte first (20_memory.md R93). -/
def wordBytes (w : Half) : List Byte := [w.extractLsb' 0 8, w.extractLsb' 8 8]

/-- The instruction word whose table bits are the low `nbits` bits of `w` and whose other bits are 0. -/
def tableWord (nbits w : Nat) : Half := BitVec.ofNat 16 (w % 2 ^ nbits)

/-- What the decoder reads from a word numbered as spec/opcode_table.json numbers it. -/
def decodeTableWord (nbits w : Nat) : Option Instr :=
  match decodeBytes (wordBytes (tableWord nbits w)) with
  | .ok (i, _) => some i
  | .error _ => none

/-! ### The encoder -/

/-- Format SHI (30_encoding.md R112): 000 op imm5 Rs Rd. -/
def encShi (op : BitVec 2) (rd rs : LoReg) (amt : Nat) : Half :=
  (0b000#3 ++ op ++ BitVec.ofNat 5 amt ++ (BitVec.ofFin rs : BitVec 3) ++ (BitVec.ofFin rd : BitVec 3) : BitVec 16)

/-- Format IMM (R113): 001 op Rd imm8. -/
def encImm (op : BitVec 2) (rd : LoReg) (imm : Nat) : Half :=
  (0b001#3 ++ op ++ (BitVec.ofFin rd : BitVec 3) ++ BitVec.ofNat 8 imm : BitVec 16)

/-- Format ALU (R114): 010000 op Rs Rd. -/
def encAlu (op : BitVec 4) (rd rs : LoReg) : Half :=
  (0b010000#6 ++ op ++ (BitVec.ofFin rs : BitVec 3) ++ (BitVec.ofFin rd : BitVec 3) : BitVec 16)

/-- Formats LIT and ADR (R115, R118): five fixed bits, Rd, and the offset over 4 in imm8. -/
def encPcRel (top : BitVec 5) (rd : LoReg) (off : Nat) : Half :=
  (top ++ (BitVec.ofFin rd : BitVec 3) ++ BitVec.ofNat 8 (off / 4) : BitVec 16)

/-- Formats LSI and LSH (R116, R117): five fixed bits, the offset over the access size in imm5, Rb, Rd. -/
def encMem (top : BitVec 5) (rd rb : LoReg) (imm5 : Nat) : Half :=
  (top ++ BitVec.ofNat 5 imm5 ++ (BitVec.ofFin rb : BitVec 3) ++ (BitVec.ofFin rd : BitVec 3) : BitVec 16)

/-- Format BCC (R119): 1101 cond, and the offset over 2 in simm8. -/
def encBcc (cond : BitVec 4) (off : Int) : Half := (0b1101#4 ++ cond ++ BitVec.ofInt 8 (off / 2) : BitVec 16)

/-- The word of an instruction (30_encoding.md R112 to R121, R125). -/
def encode : Instr → Half
  | .lslImm rd rs amt => encShi 0b00 rd rs amt
  | .lsrImm rd rs amt => encShi 0b01 rd rs amt
  | .asrImm rd rs amt => encShi 0b10 rd rs amt
  | .unrecU1 bits => (0b00011#5 ++ bits : BitVec 16)
  | .movImm rd imm => encImm 0b00 rd imm
  | .cmpImm rd imm => encImm 0b01 rd imm
  | .addImm rd imm => encImm 0b10 rd imm
  | .subImm rd imm => encImm 0b11 rd imm
  | .and rd rs => encAlu 0x0 rd rs
  | .eor rd rs => encAlu 0x1 rd rs
  | .lslReg rd rs => encAlu 0x2 rd rs
  | .lsrReg rd rs => encAlu 0x3 rd rs
  | .asrReg rd rs => encAlu 0x4 rd rs
  | .adc rd rs => encAlu 0x5 rd rs
  | .sbc rd rs => encAlu 0x6 rd rs
  | .rorReg rd rs => encAlu 0x7 rd rs
  | .tst rd rs => encAlu 0x8 rd rs
  | .neg rd rs => encAlu 0x9 rd rs
  | .cmpReg rd rs => encAlu 0xA rd rs
  | .cmn rd rs => encAlu 0xB rd rs
  | .orr rd rs => encAlu 0xC rd rs
  | .mul rd rs => encAlu 0xD rd rs
  | .bic rd rs => encAlu 0xE rd rs
  | .mvn rd rs => encAlu 0xF rd rs
  | .unrecU2 bits => (0b010001#6 ++ bits : BitVec 16)
  | .ldrLit rd off => encPcRel 0b01001 rd off
  | .unrecU3 bits => (0b0101#4 ++ bits : BitVec 16)
  | .str rd rb off => encMem 0b01100 rd rb (off / 4)
  | .ldr rd rb off => encMem 0b01101 rd rb (off / 4)
  | .strb rd rb off => encMem 0b01110 rd rb off
  | .ldrb rd rb off => encMem 0b01111 rd rb off
  | .strh rd rb off => encMem 0b10000 rd rb (off / 2)
  | .ldrh rd rb off => encMem 0b10001 rd rb (off / 2)
  | .unrecU4 bits => (0b1001#4 ++ bits : BitVec 16)
  | .adr rd off => encPcRel 0b10100 rd off
  | .unrecU5 bits => (0b10101#5 ++ bits : BitVec 16)
  | .unrecU6 bits => (0b1011#4 ++ bits : BitVec 16)
  | .unrecU7 bits => (0b1100#4 ++ bits : BitVec 16)
  | .beq off => encBcc 0x0 off
  | .bne off => encBcc 0x1 off
  | .bcs off => encBcc 0x2 off
  | .bcc off => encBcc 0x3 off
  | .bmi off => encBcc 0x4 off
  | .bpl off => encBcc 0x5 off
  | .bvs off => encBcc 0x6 off
  | .bvc off => encBcc 0x7 off
  | .bhi off => encBcc 0x8 off
  | .bls off => encBcc 0x9 off
  | .bge off => encBcc 0xA off
  | .blt off => encBcc 0xB off
  | .bgt off => encBcc 0xC off
  | .ble off => encBcc 0xD off
  | .bCondE off => encBcc 0xE off
  | .swi comment => (0b1101#4 ++ 0b1111#4 ++ BitVec.ofNat 8 comment : BitVec 16)
  | .b off => (0b11100#5 ++ BitVec.ofInt 11 (off / 2) : BitVec 16)
  | .unrecU8 bits => (0b11101#5 ++ bits : BitVec 16)
  | .unrecU9 bits => (0b1111#4 ++ bits : BitVec 16)

/-! ### The rows of spec/opcode_table.json -/

/-- The "mask" of the instruction's row: its fixed bits. -/
def Instr.tableMask : Instr → Half
  | .and _ _ | .eor _ _ | .lslReg _ _ | .lsrReg _ _ | .asrReg _ _ | .adc _ _ | .sbc _ _ | .rorReg _ _
  | .tst _ _ | .neg _ _ | .cmpReg _ _ | .cmn _ _ | .orr _ _ | .mul _ _ | .bic _ _ | .mvn _ _ => 0xFFC0
  | .unrecU2 _ => 0xFC00
  | .beq _ | .bne _ | .bcs _ | .bcc _ | .bmi _ | .bpl _ | .bvs _ | .bvc _
  | .bhi _ | .bls _ | .bge _ | .blt _ | .bgt _ | .ble _ | .bCondE _ | .swi _ => 0xFF00
  | .unrecU3 _ | .unrecU4 _ | .unrecU6 _ | .unrecU7 _ | .unrecU9 _ => 0xF000
  | .lslImm _ _ _ | .lsrImm _ _ _ | .asrImm _ _ _ | .unrecU1 _ | .movImm _ _ | .cmpImm _ _ | .addImm _ _ | .subImm _ _
  | .ldrLit _ _ | .str _ _ _ | .ldr _ _ _ | .strb _ _ _ | .ldrb _ _ _ | .strh _ _ _ | .ldrh _ _ _
  | .adr _ _ | .unrecU5 _ | .b _ | .unrecU8 _ => 0xF800

/-- The "match" of the instruction's row: the values of its fixed bits. -/
def Instr.tableMatch : Instr → Half
  | .lslImm _ _ _ => 0x0000
  | .lsrImm _ _ _ => 0x0800
  | .asrImm _ _ _ => 0x1000
  | .unrecU1 _ => 0x1800
  | .movImm _ _ => 0x2000
  | .cmpImm _ _ => 0x2800
  | .addImm _ _ => 0x3000
  | .subImm _ _ => 0x3800
  | .and _ _ => 0x4000
  | .eor _ _ => 0x4040
  | .lslReg _ _ => 0x4080
  | .lsrReg _ _ => 0x40C0
  | .asrReg _ _ => 0x4100
  | .adc _ _ => 0x4140
  | .sbc _ _ => 0x4180
  | .rorReg _ _ => 0x41C0
  | .tst _ _ => 0x4200
  | .neg _ _ => 0x4240
  | .cmpReg _ _ => 0x4280
  | .cmn _ _ => 0x42C0
  | .orr _ _ => 0x4300
  | .mul _ _ => 0x4340
  | .bic _ _ => 0x4380
  | .mvn _ _ => 0x43C0
  | .unrecU2 _ => 0x4400
  | .ldrLit _ _ => 0x4800
  | .unrecU3 _ => 0x5000
  | .str _ _ _ => 0x6000
  | .ldr _ _ _ => 0x6800
  | .strb _ _ _ => 0x7000
  | .ldrb _ _ _ => 0x7800
  | .strh _ _ _ => 0x8000
  | .ldrh _ _ _ => 0x8800
  | .unrecU4 _ => 0x9000
  | .adr _ _ => 0xA000
  | .unrecU5 _ => 0xA800
  | .unrecU6 _ => 0xB000
  | .unrecU7 _ => 0xC000
  | .beq _ => 0xD000
  | .bne _ => 0xD100
  | .bcs _ => 0xD200
  | .bcc _ => 0xD300
  | .bmi _ => 0xD400
  | .bpl _ => 0xD500
  | .bvs _ => 0xD600
  | .bvc _ => 0xD700
  | .bhi _ => 0xD800
  | .bls _ => 0xD900
  | .bge _ => 0xDA00
  | .blt _ => 0xDB00
  | .bgt _ => 0xDC00
  | .ble _ => 0xDD00
  | .bCondE _ => 0xDE00
  | .swi _ => 0xDF00
  | .b _ => 0xE000
  | .unrecU8 _ => 0xE800
  | .unrecU9 _ => 0xF000

end Sys2Proof
end

