-- ==== Sys2Proof/Machine/Fetch.lean ====
section
/-! DEFINITION. Fetching an instruction word, advancing the pc, and placing a word where the next step fetches it. -/

namespace Sys2Proof.Machine

/-- `ia`, the fetch address: pc AND 0xFFFFFFFE (70_reset_and_hazards.md R277; 90_conflicts.md C4). -/
def State.fetchAddr (s : State) : Word := s.pc &&& 0xFFFFFFFE

/-- The instruction word of the next step: one 16-bit bus read at `ia` (70_reset_and_hazards.md R276, R277). -/
def State.fetchWord (s : State) : Half := (s.memRead s.fetchAddr 2).setWidth 16

/-- pc <- pcn = (pc + 2) mod 2^32, computed from the unmasked pc (70_reset_and_hazards.md R278; decision D22,
assumption 24). -/
def State.advance (s : State) : State := s.setPc (s.pc + 2)

/-- The image with byte `b` at offset `o`. An offset past the end extends the image with 0xFF, which is what the bytes in
between read as before (20_memory.md R82). -/
def imageWith (img : List Byte) (o : Nat) (b : Byte) : List Byte :=
  (img ++ List.replicate (o + 1 - img.length) 0xFF).set o b

/-- One byte placed at a bus address from outside the machine: in the store behind the address, attached if it was not.
An unmapped address has no store. -/
def State.placeByte (s : State) (a : Word) (b : Byte) : State :=
  match s.region a with
  | .display => { s with mem := s.mem.set a.toNat b, displayAttached := true }
  | .rom => { s with img := imageWith s.img (a.toNat - s.cfg.romBase) b, romAttached := true }
  | .wram => { s with mem := s.mem.set a.toNat b }
  | .unmapped => s

/-- `s` with the pc at ROM_BASE when the fetch address, or the byte after it, has no store behind it. -/
def State.withFetchableSlot (s : State) : State :=
  if s.region s.fetchAddr = .unmapped ∨ s.region (s.fetchAddr + 1) = .unmapped then
    s.setPc (BitVec.ofNat 32 s.cfg.romBase)
  else s

/-- `s` with the word `w` where its next step fetches (assumption 6): the load of a program from outside. -/
def State.placeFetchWord (s : State) (w : Half) : State :=
  let s := s.withFetchableSlot
  (s.placeByte s.fetchAddr (w.extractLsb' 0 8)).placeByte (s.fetchAddr + 1) (w.extractLsb' 8 8)

end Sys2Proof.Machine
end

