-- ==== Sys2Proof/Machine/Step.lean ====
section
/-! DEFINITION. One step (70_reset_and_hazards.md R276). -/

namespace Sys2Proof.Machine

/-- `step()`: fetch, advance the pc, decode, execute. -/
def step (s : State) : Host.Outcome State Fault Refusal := exec (decodeWord s.fetchWord) s.advance

/-- `s` with the instruction word whose table bits are `w` stored where `step` fetches its next instruction. -/
def State.withFetchWord (s : State) (nbits w : Nat) : State := s.placeFetchWord (tableWord nbits w)

end Sys2Proof.Machine
end

