-- ==== Sys2Proof/Machine/Ports.lean ====
section
/-! DEFINITION. What the host does to the machine between steps: the ports of 00_scope.md R20 to R24 (70_reset_and_hazards.md
R274, R286). None of these is part of a step (assumption 27). -/

namespace Sys2Proof.Machine

/-- Control port `reset` (00_scope.md R20, 70_reset_and_hazards.md R270): registers and SW take their reset values;
memory, image, attachment and parameters are untouched. -/
def State.resetPort (s : State) : State := { s with regs := resetRegs s.cfg, sw := resetSw }

/-- Program-image port (00_scope.md R22): a load supplies an image, or fails. A failed load is reported and leaves the
state untouched; a load replaces IMG and IMG_LEN and nothing else (decision D29). -/
def State.loadImage (s : State) (load : Option (List Byte)) : Bool × State :=
  match load with
  | some img => (true, { s with img := img })
  | none => (false, s)

/-- Attaching or detaching the display surface (00_scope.md R24); its contents stay (assumption 28). -/
def State.attachDisplay (s : State) (attached : Bool) : State := { s with displayAttached := attached }

/-- Attaching or detaching the program image (00_scope.md R24). -/
def State.attachRom (s : State) (attached : Bool) : State := { s with romAttached := attached }

/-- Display-surface read port (00_scope.md R23): the consumer reads a 16-bit cell of the surface; there is no write port. -/
def State.readCell (s : State) (c : Nat) : Option Half := if c < s.cfg.displayCells then some (s.dispCell c) else none

end Sys2Proof.Machine
end

