-- ==== Sys2Proof/Safety.lean ====
section
/-! DEFINITION. What counts as a good state and a safe run, in the terms the claims use. -/

namespace Sys2Proof.Machine

/-- The mutable stores hold entries only where such a store is: in the display region or in working memory
(20_memory.md R71, R72). -/
def State.MemInStores (s : State) : Prop :=
  ∀ e ∈ s.mem, regionAt s.cfg e.1 = .display ∨ regionAt s.cfg e.1 = .wram

/-- What the spec says of every state a run can reach. -/
structure State.Inv (s : State) : Prop where
  /-- The parameters meet their constraints (00_scope.md R7). -/
  cfg : s.cfg.wf
  /-- The memory is in canonical form. -/
  mem : s.mem.wf
  /-- It holds nothing outside the mutable stores. -/
  stores : s.MemInStores
  /-- The pc is even (10_state.md R34). -/
  pcEven : s.pc.getLsbD 0 = false
  /-- T is 1, and the bits of SW that the spec does not name are 0 (10_state.md R36, R37). -/
  swFixed : s.sw.extractLsb' 0 28 = 0x20
  /-- x[8] to x[14] hold their reset values (10_state.md R32). -/
  high : ∀ r : RegIdx, 8 ≤ r.val → r.val ≤ 14 → s.reg r = (resetRegs s.cfg)[r]

/-- `n` steps from `s`, none of them stopped, end in `t` (70_reset_and_hazards.md R285). -/
def State.RunsTo (s : State) : Nat → State → Prop
  | 0, t => t = s
  | n + 1, t => ∃ u, s.RunsTo n u ∧ step u = .next t

/-- The flag policies of 10_state.md R38. -/
inductive FlagPolicy where
  | none
  | logical
  | additive
  | subtractive
  | multiply
  deriving DecidableEq, Repr

/-- Which policy each instruction uses: the table of 10_state.md R43. -/
def flagPolicy : Instr → FlagPolicy
  | .lslImm _ _ _ | .lsrImm _ _ _ | .asrImm _ _ _ | .movImm _ _
  | .and _ _ | .eor _ _ | .lslReg _ _ | .lsrReg _ _ | .asrReg _ _ | .rorReg _ _ | .tst _ _
  | .orr _ _ | .bic _ _ | .mvn _ _ => .logical
  | .addImm _ _ | .adc _ _ | .neg _ _ | .cmn _ _ => .additive
  | .cmpImm _ _ | .subImm _ _ | .sbc _ _ | .cmpReg _ _ => .subtractive
  | .mul _ _ => .multiply
  | .ldrLit _ _ | .str _ _ _ | .ldr _ _ _ | .strb _ _ _ | .ldrb _ _ _ | .strh _ _ _ | .ldrh _ _ _ | .adr _ _
  | .beq _ | .bne _ | .bcs _ | .bcc _ | .bmi _ | .bpl _ | .bvs _ | .bvc _
  | .bhi _ | .bls _ | .bge _ | .blt _ | .bgt _ | .ble _ | .bCondE _ | .swi _ | .b _
  | .unrecU1 _ | .unrecU2 _ | .unrecU3 _ | .unrecU4 _ | .unrecU5 _ | .unrecU6 _ | .unrecU7 _
  | .unrecU8 _ | .unrecU9 _ => .none

/-- The register each instruction writes, as its own rule says (files 40 to 46): no instruction names another. -/
def destination : Instr → Option LoReg
  | .lslImm rd _ _ | .lsrImm rd _ _ | .asrImm rd _ _ | .movImm rd _ | .addImm rd _ | .subImm rd _
  | .and rd _ | .eor rd _ | .lslReg rd _ | .lsrReg rd _ | .asrReg rd _ | .adc rd _ | .sbc rd _ | .rorReg rd _
  | .neg rd _ | .orr rd _ | .mul rd _ | .bic rd _ | .mvn rd _
  | .ldrLit rd _ | .ldr rd _ _ | .ldrb rd _ _ | .ldrh rd _ _ | .adr rd _ => some rd
  | .cmpImm _ _ | .tst _ _ | .cmpReg _ _ | .cmn _ _ | .str _ _ _ | .strb _ _ _ | .strh _ _ _
  | .beq _ | .bne _ | .bcs _ | .bcc _ | .bmi _ | .bpl _ | .bvs _ | .bvc _
  | .bhi _ | .bls _ | .bge _ | .blt _ | .bgt _ | .ble _ | .bCondE _ | .swi _ | .b _
  | .unrecU1 _ | .unrecU2 _ | .unrecU3 _ | .unrecU4 _ | .unrecU5 _ | .unrecU6 _ | .unrecU7 _
  | .unrecU8 _ | .unrecU9 _ => none

/-- The address a store writes to in state `s`, and how many bytes; nothing for every other instruction
(43_load_store.md R192, R194, R196; 20_memory.md R95). -/
def storeAt (s : State) : Instr → Option (Word × Nat)
  | .str _ rb off => some (s.baseAddr rb off, 4)
  | .strb _ rb off => some (s.baseAddr rb off, 1)
  | .strh _ rb off => some (s.baseAddr rb off, 2)
  | .lslImm _ _ _ | .lsrImm _ _ _ | .asrImm _ _ _ | .movImm _ _ | .cmpImm _ _ | .addImm _ _ | .subImm _ _
  | .and _ _ | .eor _ _ | .lslReg _ _ | .lsrReg _ _ | .asrReg _ _ | .adc _ _ | .sbc _ _ | .rorReg _ _
  | .tst _ _ | .neg _ _ | .cmpReg _ _ | .cmn _ _ | .orr _ _ | .mul _ _ | .bic _ _ | .mvn _ _
  | .ldrLit _ _ | .ldr _ _ _ | .ldrb _ _ _ | .ldrh _ _ _ | .adr _ _
  | .beq _ | .bne _ | .bcs _ | .bcc _ | .bmi _ | .bpl _ | .bvs _ | .bvc _
  | .bhi _ | .bls _ | .bge _ | .blt _ | .bgt _ | .ble _ | .bCondE _ | .swi _ | .b _
  | .unrecU1 _ | .unrecU2 _ | .unrecU3 _ | .unrecU4 _ | .unrecU5 _ | .unrecU6 _ | .unrecU7 _
  | .unrecU8 _ | .unrecU9 _ => none

/-- The branches: the only instructions that write the pc (10_state.md R32; 45_branch.md R225). -/
def isBranch : Instr → Bool
  | .beq _ | .bne _ | .bcs _ | .bcc _ | .bmi _ | .bpl _ | .bvs _ | .bvc _
  | .bhi _ | .bls _ | .bge _ | .blt _ | .bgt _ | .ble _ | .bCondE _ | .b _ => true
  | .lslImm _ _ _ | .lsrImm _ _ _ | .asrImm _ _ _ | .movImm _ _ | .cmpImm _ _ | .addImm _ _ | .subImm _ _
  | .and _ _ | .eor _ _ | .lslReg _ _ | .lsrReg _ _ | .asrReg _ _ | .adc _ _ | .sbc _ _ | .rorReg _ _
  | .tst _ _ | .neg _ _ | .cmpReg _ _ | .cmn _ _ | .orr _ _ | .mul _ _ | .bic _ _ | .mvn _ _
  | .ldrLit _ _ | .str _ _ _ | .ldr _ _ _ | .strb _ _ _ | .ldrb _ _ _ | .strh _ _ _ | .ldrh _ _ _ | .adr _ _
  | .swi _ | .unrecU1 _ | .unrecU2 _ | .unrecU3 _ | .unrecU4 _ | .unrecU5 _ | .unrecU6 _ | .unrecU7 _
  | .unrecU8 _ | .unrecU9 _ => false

/-! ### What the statements about results say of the state after -/

/-- `t` is `s` after a logical operation with result `r` in `rd`: N and Z from `r`, C and V unchanged. -/
def LogicalOutcome (rd : LoReg) (r : Word) (s t : State) : Prop :=
  t.lo rd = r ∧ t.flagN = r.msb ∧ t.flagZ = decide (r = 0) ∧ t.flagC = s.flagC ∧ t.flagV = s.flagV

/-- The four bytes from `a` up, least significant first. -/
def wordAt (s : State) (a : Word) : Word :=
  (s.readByte (a + 3) ++ s.readByte (a + 2) ++ s.readByte (a + 1) ++ s.readByte a : BitVec 32)

/-- `t` is `s` after `n` bytes of `v` were stored at `ea`: byte k of `v` at (ea + k) mod 2^32 where a write is kept, every other
byte as before, registers and SW unchanged. -/
def StoreOutcome (ea : Word) (n : Nat) (v : Word) (s t : State) : Prop :=
  t.regs = s.regs ∧ t.sw = s.sw ∧
  ∀ a : Word, t.readByte a =
    if s.writable a = true ∧ (a - ea).toNat < n then v.extractLsb' (8 * (a - ea).toNat) 8 else s.readByte a

/-- Executing `i`, a branch by `off`, goes to pcn + off when `taken` holds and otherwise leaves the state as it is. -/
def BranchesWhen (i : Instr) (off : Int) (s : State) (taken : Prop) : Prop :=
  (taken → exec i s = .next (s.setPc (s.pc + BitVec.ofInt 32 off))) ∧ (¬ taken → exec i s = .next s)

end Sys2Proof.Machine
end

