-- ==== Sys2Proof/Certificates/Slice0/Obligations.lean ====
section
/-! DEFINITION. The statements for the provers. Each docstring names the rules of spec/ it formalises; where a clause rests
on a decision of the spec's own or of the model, it names the decision or the assumption. -/

open Sys2Proof Sys2Proof.Machine

/-! ### Encoding (the bit positions are decision D1, assumption 7) -/

/-- Decoding the word of a well-formed instruction gives the instruction back, every operand at every value its field can
hold (30_encoding.md R112 to R125; the bit positions are decision D1, assumption 7). -/
def Obligations.DecodeInvertsEncode : Prop :=
  ∀ i : Instr, i.wellFormed = true → decodeWord (encode i) = i

/-- Encoding what a word decodes to gives the word back: no bit of any of the 65536 words is dropped (R124; the bit positions are
decision D1, assumption 7). -/
def Obligations.EncodeInvertsDecode : Prop :=
  ∀ w : Half, encode (decodeWord w) = w

/-- Every word has the fixed bits of the opcode-table row it decodes to, and of no other row (R124, R125: "total on all
65536 words, and its classes do not overlap"; the bit positions are decision D1 and the unrecognized classes D19, assumptions 7
and 22). -/
def Obligations.EachWordHasExactlyItsTableRow : Prop :=
  ∀ w : Half,
    w &&& (decodeWord w).tableMask = (decodeWord w).tableMatch ∧
    ∀ i : Instr, w &&& i.tableMask = i.tableMatch →
      i.tableMask = (decodeWord w).tableMask ∧ i.tableMatch = (decodeWord w).tableMatch

/-- A word of each family, written out from its format, decodes to its instruction (examples of R140, R153, R166, R191,
R193, R196, R210, R221, R223, R224, R240; the bit positions are decision D1, assumption 7). -/
def Obligations.SampleWordsDecode : Prop :=
  decodeTableWord 16 0b000_00_11111_000_001 = some (.lslImm 1 0 31) ∧
  decodeTableWord 16 0b001_11_001_00000001 = some (.subImm 1 1) ∧
  decodeTableWord 16 0b010000_0101_001_000 = some (.adc 0 1) ∧
  decodeTableWord 16 0b01001_000_00000011 = some (.ldrLit 0 12) ∧
  decodeTableWord 16 0b0110_1_00001_000_010 = some (.ldr 2 0 4) ∧
  decodeTableWord 16 0b1000_0_00001_000_001 = some (.strh 1 0 2) ∧
  decodeTableWord 16 0b1010_0_000_00000001 = some (.adr 0 4) ∧
  decodeTableWord 16 0b1101_0001_11111101 = some (.bne (-6)) ∧
  decodeTableWord 16 0b1101_1111_00000101 = some (.swi 5) ∧
  decodeTableWord 16 0b11100_11111111111 = some (.b (-2)) ∧
  decodeTableWord 16 0b00011_00010001000 = some (.unrecU1 0b00010001000)

/-! ### The step -/

/-- When the two bytes at the masked pc are the word of a well-formed instruction, low byte first, the step is that
instruction executed on the state whose pc is 2 further (70_reset_and_hazards.md R276, R278; for an odd pc, that 2 is added to
the pc unmasked is decision D22, assumption 24). -/
def Obligations.StepRunsTheDecodedInstruction : Prop :=
  ∀ (s : State) (i : Instr), i.wellFormed = true →
    s.readByte (s.pc &&& 0xFFFFFFFE) = (encode i).extractLsb' 0 8 →
    s.readByte ((s.pc &&& 0xFFFFFFFE) + 1) = (encode i).extractLsb' 8 8 →
    step s = exec i (s.setPc (s.pc + 2))

/-- A step performs one fetch, decode, execute cycle and always completes (00_scope.md R21). -/
def Obligations.EveryStepCompletes : Prop :=
  ∀ s : State, ∃ t, step s = .next t ∧ exec (decodeWord s.fetchWord) s.advance = .next t

/-- Every instruction, in every state and with every operand, answers a next state: nothing faults, stalls or is refused
(60_exceptions.md R250; 46_unrecognized.md R242). -/
def Obligations.EveryInstructionCompletes : Prop :=
  ∀ (i : Instr) (s : State), ∃ t, exec i s = .next t

/-- A run of any length from any state goes through: the core never stops by itself (70_reset_and_hazards.md R285). -/
def Obligations.EveryRunGoesThrough : Prop :=
  ∀ (n : Nat) (s : State), ∃ t, s.RunsTo n t

/-- A fetch from unmapped space gives 0x0000, and one past the image inside the attached window gives 0xFFFF, whose step
only advances (70_reset_and_hazards.md R277; 46_unrecognized.md R240; the 0xFF fill inside the window is decision D26; for
an odd pc the advance is decision D22). -/
def Obligations.FetchOutsideTheImage : Prop :=
  ∀ s : State,
    (s.region (s.pc &&& 0xFFFFFFFE) = .unmapped → s.region ((s.pc &&& 0xFFFFFFFE) + 1) = .unmapped →
      s.fetchWord = 0x0000) ∧
    (s.romAttached = true → s.region (s.pc &&& 0xFFFFFFFE) = .rom → s.region ((s.pc &&& 0xFFFFFFFE) + 1) = .rom →
      s.img.length ≤ (s.pc &&& 0xFFFFFFFE).toNat - s.cfg.romBase →
      s.img.length ≤ ((s.pc &&& 0xFFFFFFFE) + 1).toNat - s.cfg.romBase →
      s.fetchWord = 0xFFFF ∧ step s = .next (s.setPc (s.pc + 2)))

/-! ### Whole-machine rules -/

/-- x[8] to x[14] are neither read nor written by any step: changing one beforehand changes nothing but that register
afterwards (10_state.md R32). -/
def Obligations.HighRegistersAreIsolated : Prop :=
  ∀ (s t : State) (r : RegIdx) (v : Word), 8 ≤ r.val → r.val ≤ 14 → step s = .next t →
    step (s.setReg r v) = .next (t.setReg r v) ∧ t.reg r = s.reg r

/-- T has no effect on decoding or on anything a step does, no step changes it, and reset sets it (10_state.md R37). -/
def Obligations.CompactStateBitHasNoEffect : Prop :=
  ∀ s t : State, step s = .next t →
    step { s with sw := s.sw ^^^ 0x20 } = .next { t with sw := t.sw ^^^ 0x20 } ∧ t.flagT = s.flagT ∧
    s.resetPort.flagT = true

/-- What no step changes: bits 27:0 of SW (10_state.md R36), the program image, its length, the attachments (R52; 20_memory.md
R90) and the parameters. -/
def Obligations.NoStepChangesWhatTheProgramCannot : Prop :=
  ∀ s t : State, step s = .next t →
    t.sw.extractLsb' 0 28 = s.sw.extractLsb' 0 28 ∧ t.img = s.img ∧ t.displayAttached = s.displayAttached ∧
    t.romAttached = s.romAttached ∧ t.cfg = s.cfg

/-- An even pc stays even under every step (10_state.md R34; the advance of the unmasked pc is decision D22). -/
def Obligations.PcStaysEven : Prop :=
  ∀ s t : State, s.pc.getLsbD 0 = false → step s = .next t → t.pc.getLsbD 0 = false

/-- The invariant of reachable states (`State.Inv`: parameters in their constraints, memory canonical and only where a
mutable store is, pc even, T = 1 and the unnamed bits of SW 0, x[8] to x[14] at their reset values) is kept by every step
(10_state.md R32, R34, R36, R37; 20_memory.md R71). -/
def Obligations.StepKeepsTheInvariant : Prop :=
  ∀ s t : State, s.Inv → step s = .next t → t.Inv

/-- Reset establishes the invariant, whatever the registers and SW were (10_state.md R54; the zero bits of SW are
decision D4); the model's reset state has it (its parameters are the model's choice, assumption 2). -/
def Obligations.ResetEstablishesTheInvariant : Prop :=
  State.reset.Inv ∧ ∀ s : State, s.cfg.wf → s.mem.wf → s.MemInStores → s.resetPort.Inv

/-- A self-branch (0xE7FF at an even pc) leaves the whole state unchanged, for any number of steps (70_reset_and_hazards.md
R285, decision D28; 45_branch.md R224). -/
def Obligations.SelfBranchIsIdle : Prop :=
  ∀ s : State, s.pc.getLsbD 0 = false → s.fetchWord = 0xE7FF → ∀ n : Nat, s.RunsTo n s

/-- Frame of the registers: no instruction changes a register other than its destination, and only a branch changes the pc
(70_reset_and_hazards.md R279; 10_state.md R32). -/
def Obligations.RegisterFrame : Prop :=
  ∀ (i : Instr) (s t : State), exec i s = .next t →
    (∀ r : RegIdx, r ≠ 15 → (∀ rd, destination i = some rd → loIdx rd ≠ r) → t.reg r = s.reg r) ∧
    (isBranch i = false → t.pc = s.pc)

/-- Frame of the flags: an instruction with no policy leaves SW whole; a logical one leaves V; the multiply clears C and V;
every instruction leaves bits 27:0 of SW (10_state.md R38, R43; which instruction has which policy is in part decisions D6,
D8, D9, D10). -/
def Obligations.FlagFrame : Prop :=
  ∀ (i : Instr) (s t : State), exec i s = .next t →
    t.sw.extractLsb' 0 28 = s.sw.extractLsb' 0 28 ∧
    (flagPolicy i = .none → t.sw = s.sw) ∧
    (flagPolicy i = .logical → t.flagV = s.flagV) ∧
    (flagPolicy i = .multiply → t.flagC = false ∧ t.flagV = false)

/-- Frame of the memory: a store changes no byte outside the bytes it stores, at the address its meaning computes; every
other instruction leaves the memory as it is; none touches the program image, the attachments or the parameters
(43_load_store.md R190; 20_memory.md R90, R95). -/
def Obligations.MemoryFrame : Prop :=
  ∀ (i : Instr) (s t : State), exec i s = .next t →
    (storeAt s i = none → t.mem = s.mem ∧ ∀ a : Word, t.readByte a = s.readByte a) ∧
    (∀ (ea : Word) (n : Nat), storeAt s i = some (ea, n) →
      ∀ a : Word, n ≤ (a - ea).toNat → t.readByte a = s.readByte a) ∧
    t.img = s.img ∧ t.displayAttached = s.displayAttached ∧ t.romAttached = s.romAttached ∧ t.cfg = s.cfg

/-! ### G1 and the shift primitive -/

/-- Shift by 0, by 1 to 31, by 32 and by more, and rotates modulo 32 (10_state.md R45 to R49). -/
def Obligations.ShiftPrimitiveEdgeCases : Prop :=
  ∀ (v : Word) (amt : Nat) (cin : Bool),
    (∀ kind, shift kind v 0 cin = (v, cin)) ∧
    (1 ≤ amt → amt ≤ 31 →
      shift .lsl v amt cin = (v <<< amt, v.getLsbD (32 - amt)) ∧
      shift .lsr v amt cin = (v >>> amt, v.getLsbD (amt - 1)) ∧
      shift .asr v amt cin = (v.sshiftRight amt, v.getLsbD (amt - 1)) ∧
      shift .ror v amt cin = (v.rotateRight amt, v.getLsbD (amt - 1))) ∧
    (shift .lsl v 32 cin = (0, v.getLsbD 0) ∧ shift .lsr v 32 cin = (0, v.getLsbD 31) ∧
      shift .asr v 32 cin = (if v.msb then BitVec.allOnes 32 else 0, v.msb)) ∧
    (32 < amt →
      shift .lsl v amt cin = (0, false) ∧ shift .lsr v amt cin = (0, false) ∧
      shift .asr v amt cin = shift .asr v 32 cin) ∧
    shift .ror v amt cin = shift .ror v (amt % 32) cin

/-- LSL, LSR and ASR by an immediate complete with the shifted value, N and Z from it, C the bit shifted out (unchanged at
amount 0) and V unchanged (40_shift_immediate.md R140 to R142; amount 0 and the flag policy are decisions D5, D6). -/
def Obligations.ImmediateShifts : Prop :=
  ∀ (rd rs : LoReg) (amt : Nat) (s : State), amt ≤ 31 →
    (∃ t, exec (.lslImm rd rs amt) s = .next t ∧ t.lo rd = s.lo rs <<< amt ∧
      t.flagN = (s.lo rs <<< amt).msb ∧ t.flagZ = decide (s.lo rs <<< amt = 0) ∧
      t.flagC = (if amt = 0 then s.flagC else (s.lo rs).getLsbD (32 - amt)) ∧ t.flagV = s.flagV) ∧
    (∃ t, exec (.lsrImm rd rs amt) s = .next t ∧ t.lo rd = s.lo rs >>> amt ∧
      t.flagN = (s.lo rs >>> amt).msb ∧ t.flagZ = decide (s.lo rs >>> amt = 0) ∧
      t.flagC = (if amt = 0 then s.flagC else (s.lo rs).getLsbD (amt - 1)) ∧ t.flagV = s.flagV) ∧
    (∃ t, exec (.asrImm rd rs amt) s = .next t ∧ t.lo rd = (s.lo rs).sshiftRight amt ∧
      t.flagN = (s.lo rs).msb ∧ t.flagZ = decide ((s.lo rs).sshiftRight amt = 0) ∧
      t.flagC = (if amt = 0 then s.flagC else (s.lo rs).getLsbD (amt - 1)) ∧ t.flagV = s.flagV)

/-! ### G2 -/

/-- MOV immediate completes with the zero-extended immediate, N = 0, Z from it, C and V unchanged (41_immediate_alu.md R150;
the flags are decision D9). -/
def Obligations.MoveImmediate : Prop :=
  ∀ (rd : LoReg) (imm : Nat) (s : State), imm ≤ 255 →
    ∃ t, exec (.movImm rd imm) s = .next t ∧ (t.lo rd).toNat = imm ∧
      t.flagN = false ∧ t.flagZ = decide (imm = 0) ∧ t.flagC = s.flagC ∧ t.flagV = s.flagV

/-- CMP immediate completes with every register and all of memory unchanged and the flags of x[Rd] - imm (R151). -/
def Obligations.CompareImmediate : Prop :=
  ∀ (rd : LoReg) (imm : Nat) (s : State), imm ≤ 255 →
    ∃ t, exec (.cmpImm rd imm) s = .next t ∧ t.regs = s.regs ∧ t.mem = s.mem ∧
      t.flagN = (s.lo rd - BitVec.ofNat 32 imm).msb ∧ t.flagZ = decide ((s.lo rd).toNat = imm) ∧
      t.flagC = decide (imm ≤ (s.lo rd).toNat) ∧
      t.flagV = ((s.lo rd).msb && !(s.lo rd - BitVec.ofNat 32 imm).msb)

/-- ADD immediate completes with the sum modulo 2^32 and its flags (R152). -/
def Obligations.AddImmediate : Prop :=
  ∀ (rd : LoReg) (imm : Nat) (s : State), imm ≤ 255 →
    ∃ t, exec (.addImm rd imm) s = .next t ∧ t.lo rd = s.lo rd + BitVec.ofNat 32 imm ∧
      t.flagN = (t.lo rd).msb ∧ t.flagZ = decide (t.lo rd = 0) ∧
      t.flagC = decide (2 ^ 32 ≤ (s.lo rd).toNat + imm) ∧ t.flagV = (!(s.lo rd).msb && (t.lo rd).msb)

/-- SUB immediate completes with the difference modulo 2^32 and its flags, C meaning no borrow (R153). -/
def Obligations.SubtractImmediate : Prop :=
  ∀ (rd : LoReg) (imm : Nat) (s : State), imm ≤ 255 →
    ∃ t, exec (.subImm rd imm) s = .next t ∧ t.lo rd = s.lo rd - BitVec.ofNat 32 imm ∧
      t.flagN = (t.lo rd).msb ∧ t.flagZ = decide (t.lo rd = 0) ∧
      t.flagC = decide (imm ≤ (s.lo rd).toNat) ∧ t.flagV = ((s.lo rd).msb && !(t.lo rd).msb)

/-! ### G3 -/

/-- AND, EOR, ORR, BIC and MVN complete with their bitwise result, N and Z from it, C and V unchanged (42_register_alu.md
R161, R162, R173, R175, R176; C unchanged is decision D8). -/
def Obligations.LogicalOperations : Prop :=
  ∀ (rd rs : LoReg) (s : State),
    (∃ t, exec (.and rd rs) s = .next t ∧ LogicalOutcome rd (s.lo rd &&& s.lo rs) s t) ∧
    (∃ t, exec (.eor rd rs) s = .next t ∧ LogicalOutcome rd (s.lo rd ^^^ s.lo rs) s t) ∧
    (∃ t, exec (.orr rd rs) s = .next t ∧ LogicalOutcome rd (s.lo rd ||| s.lo rs) s t) ∧
    (∃ t, exec (.bic rd rs) s = .next t ∧ LogicalOutcome rd (s.lo rd &&& ~~~ s.lo rs) s t) ∧
    (∃ t, exec (.mvn rd rs) s = .next t ∧ LogicalOutcome rd (~~~ s.lo rs) s t)

/-- TST completes with every register and all of memory unchanged, N and Z of the AND, C and V unchanged (R169; C unchanged is
decision D8). -/
def Obligations.TestBits : Prop :=
  ∀ (rd rs : LoReg) (s : State), ∃ t, exec (.tst rd rs) s = .next t ∧ t.regs = s.regs ∧ t.mem = s.mem ∧
    t.flagN = ((s.lo rd).msb && (s.lo rs).msb) ∧ t.flagZ = decide (s.lo rd &&& s.lo rs = 0) ∧
    t.flagC = s.flagC ∧ t.flagV = s.flagV

/-- LSL by register completes, at every amount 0 to 255 (R163; the amount's width is decision D7). -/
def Obligations.ShiftLeftByRegister : Prop :=
  ∀ (rd rs : LoReg) (s : State), ∃ t, exec (.lslReg rd rs) s = .next t ∧
    t.lo rd = s.lo rd <<< ((s.lo rs).toNat % 256) ∧
    t.flagN = (t.lo rd).msb ∧ t.flagZ = decide (t.lo rd = 0) ∧
    t.flagC = (if (s.lo rs).toNat % 256 = 0 then s.flagC
      else if (s.lo rs).toNat % 256 ≤ 32 then (s.lo rd).getLsbD (32 - (s.lo rs).toNat % 256) else false) ∧
    t.flagV = s.flagV

/-- LSR by register completes, at every amount 0 to 255 (R164; the amount's width is decision D7). -/
def Obligations.ShiftRightByRegister : Prop :=
  ∀ (rd rs : LoReg) (s : State), ∃ t, exec (.lsrReg rd rs) s = .next t ∧
    t.lo rd = s.lo rd >>> ((s.lo rs).toNat % 256) ∧
    t.flagN = (t.lo rd).msb ∧ t.flagZ = decide (t.lo rd = 0) ∧
    t.flagC = (if (s.lo rs).toNat % 256 = 0 then s.flagC
      else if (s.lo rs).toNat % 256 ≤ 32 then (s.lo rd).getLsbD ((s.lo rs).toNat % 256 - 1) else false) ∧
    t.flagV = s.flagV

/-- ASR by register completes, at every amount 0 to 255 (R165; the amount's width is decision D7). -/
def Obligations.ArithmeticShiftByRegister : Prop :=
  ∀ (rd rs : LoReg) (s : State), ∃ t, exec (.asrReg rd rs) s = .next t ∧
    t.lo rd = (s.lo rd).sshiftRight ((s.lo rs).toNat % 256) ∧
    t.flagN = (s.lo rd).msb ∧ t.flagZ = decide (t.lo rd = 0) ∧
    t.flagC = (if (s.lo rs).toNat % 256 = 0 then s.flagC
      else if (s.lo rs).toNat % 256 ≤ 32 then (s.lo rd).getLsbD ((s.lo rs).toNat % 256 - 1) else (s.lo rd).msb) ∧
    t.flagV = s.flagV

/-- ROR by register completes; a multiple of 32 leaves the value and C (R168, 10_state.md R49; the amount's width is decision
D7). -/
def Obligations.RotateByRegister : Prop :=
  ∀ (rd rs : LoReg) (s : State), ∃ t, exec (.rorReg rd rs) s = .next t ∧
    t.lo rd = (s.lo rd).rotateRight ((s.lo rs).toNat % 256) ∧
    t.flagN = (t.lo rd).msb ∧ t.flagZ = decide (t.lo rd = 0) ∧
    t.flagC = (if (s.lo rs).toNat % 32 = 0 then s.flagC else (t.lo rd).msb) ∧ t.flagV = s.flagV

/-- ADC completes with a + b + C modulo 2^32, C the unsigned carry, V the sign rule (R166). -/
def Obligations.AddWithCarryIn : Prop :=
  ∀ (rd rs : LoReg) (s : State), ∃ t, exec (.adc rd rs) s = .next t ∧
    t.lo rd = s.lo rd + s.lo rs + (BitVec.ofBool s.flagC).setWidth 32 ∧
    t.flagN = (t.lo rd).msb ∧ t.flagZ = decide (t.lo rd = 0) ∧
    t.flagC = decide (0xFFFFFFFF < (s.lo rd).toNat + (s.lo rs).toNat + s.flagC.toNat) ∧
    t.flagV = ((s.lo rd).msb == (s.lo rs).msb && (t.lo rd).msb != (s.lo rd).msb)

/-- SBC completes with a - b - (1 - C) modulo 2^32, C no borrow against the unwrapped subtrahend, V the sign rule (R167; the
subtrahend's width is decision D11). -/
def Obligations.SubtractWithBorrow : Prop :=
  ∀ (rd rs : LoReg) (s : State), ∃ t, exec (.sbc rd rs) s = .next t ∧
    t.lo rd = s.lo rd - s.lo rs - (BitVec.ofBool (!s.flagC)).setWidth 32 ∧
    t.flagN = (t.lo rd).msb ∧ t.flagZ = decide (t.lo rd = 0) ∧
    t.flagC = decide ((s.lo rs).toNat + (!s.flagC).toNat ≤ (s.lo rd).toNat) ∧
    t.flagV = ((s.lo rd).msb != (s.lo rs).msb && (t.lo rd).msb != (s.lo rd).msb)

/-- NEG completes with -b, C exactly when b = 0, V exactly when b = 0x80000000 (R170; its operands are decision D10). -/
def Obligations.Negate : Prop :=
  ∀ (rd rs : LoReg) (s : State), ∃ t, exec (.neg rd rs) s = .next t ∧ t.lo rd = -(s.lo rs) ∧
    t.flagN = (t.lo rd).msb ∧ t.flagZ = decide (s.lo rs = 0) ∧
    t.flagC = decide (s.lo rs = 0) ∧ t.flagV = decide (s.lo rs = 0x80000000)

/-- CMP and CMN by register complete with every register and all of memory unchanged, and the flags of a - b and of a + b
(R171, R172). -/
def Obligations.CompareRegisters : Prop :=
  ∀ (rd rs : LoReg) (s : State),
    (∃ t, exec (.cmpReg rd rs) s = .next t ∧ t.regs = s.regs ∧ t.mem = s.mem ∧
      t.flagN = (s.lo rd - s.lo rs).msb ∧ t.flagZ = decide (s.lo rd = s.lo rs) ∧
      t.flagC = decide ((s.lo rs).toNat ≤ (s.lo rd).toNat) ∧
      t.flagV = ((s.lo rd).msb != (s.lo rs).msb && (s.lo rd - s.lo rs).msb != (s.lo rd).msb)) ∧
    (∃ t, exec (.cmn rd rs) s = .next t ∧ t.regs = s.regs ∧ t.mem = s.mem ∧
      t.flagN = (s.lo rd + s.lo rs).msb ∧ t.flagZ = decide (s.lo rd + s.lo rs = 0) ∧
      t.flagC = decide (0xFFFFFFFF < (s.lo rd).toNat + (s.lo rs).toNat) ∧
      t.flagV = ((s.lo rd).msb == (s.lo rs).msb && (s.lo rd + s.lo rs).msb != (s.lo rd).msb))

/-- MUL completes with the low 32 bits of the product, the same for the unsigned and the signed product, N and Z from it, C and
V cleared (R174, 10_state.md R42; the width is decision D30). -/
def Obligations.Multiply : Prop :=
  ∀ (rd rs : LoReg) (s : State), ∃ t, exec (.mul rd rs) s = .next t ∧
    (t.lo rd).toNat = (s.lo rd).toNat * (s.lo rs).toNat % 2 ^ 32 ∧
    t.lo rd = BitVec.ofInt 32 ((s.lo rd).toInt * (s.lo rs).toInt) ∧
    t.flagN = (t.lo rd).msb ∧ t.flagZ = decide (t.lo rd = 0) ∧ t.flagC = false ∧ t.flagV = false

/-- The additive policy: the result is the sum modulo 2^32, C says that the exact unsigned sum exceeds 32 bits, V that the
exact signed sum is out of range (10_state.md R40). -/
def Obligations.AdditivePolicyMeansCarryAndOverflow : Prop :=
  ∀ (a b : Word) (cin : Bool),
    addWithCarry a b cin = a + b + (BitVec.ofBool cin).setWidth 32 ∧
    (addFlags a b cin).n = (addWithCarry a b cin).msb ∧
    ((addFlags a b cin).z = true ↔ addWithCarry a b cin = 0) ∧
    ((addFlags a b cin).c = true ↔ 2 ^ 32 ≤ a.toNat + b.toNat + cin.toNat) ∧
    ((addFlags a b cin).v = true ↔
      a.toInt + b.toInt + cin.toNat < -(2 ^ 31) ∨ 2 ^ 31 - 1 < a.toInt + b.toInt + cin.toNat)

/-- The subtractive policy: the result is the difference modulo 2^32, C says that nothing was borrowed, V that the exact signed
difference is out of range (10_state.md R41; the subtrahend's width is decision D11). -/
def Obligations.SubtractivePolicyMeansNoBorrowAndOverflow : Prop :=
  ∀ (a b : Word) (cin : Bool),
    subWithBorrow a b cin = a - b - (BitVec.ofBool (!cin)).setWidth 32 ∧
    (subFlags a b cin).n = (subWithBorrow a b cin).msb ∧
    ((subFlags a b cin).z = true ↔ subWithBorrow a b cin = 0) ∧
    ((subFlags a b cin).c = true ↔ b.toNat + (!cin).toNat ≤ a.toNat) ∧
    ((subFlags a b cin).v = true ↔
      a.toInt - b.toInt - (!cin).toNat < -(2 ^ 31) ∨ 2 ^ 31 - 1 < a.toInt - b.toInt - (!cin).toNat)

/-! ### G4 to G7 -/

/-- Word loads complete with the four bytes at the effective address, little-endian, the address used as it is: the base register
plus offset, and (pcn AND 0xFFFFFFFD) plus offset. SW and memory are unchanged (43_load_store.md R191, R193; misaligned
addresses are decision D13). -/
def Obligations.WordLoads : Prop :=
  ∀ (rd rb : LoReg) (off : Nat) (s : State),
    (∃ t, exec (.ldr rd rb off) s = .next t ∧ t.lo rd = wordAt s (s.lo rb + BitVec.ofNat 32 off) ∧
      t.sw = s.sw ∧ t.mem = s.mem) ∧
    (∃ t, exec (.ldrLit rd off) s = .next t ∧ t.lo rd = wordAt s ((s.pc &&& 0xFFFFFFFD) + BitVec.ofNat 32 off) ∧
      t.sw = s.sw ∧ t.mem = s.mem)

/-- Byte and halfword loads complete with the bytes at the effective address, zero-extended; SW and memory are unchanged (R195,
R197; zero extension is decision D12, misaligned addresses D13). -/
def Obligations.NarrowLoadsZeroExtend : Prop :=
  ∀ (rd rb : LoReg) (off : Nat) (s : State),
    (∃ t, exec (.ldrb rd rb off) s = .next t ∧
      t.lo rd = (s.readByte (s.lo rb + BitVec.ofNat 32 off)).setWidth 32 ∧ t.sw = s.sw ∧ t.mem = s.mem) ∧
    (∃ t, exec (.ldrh rd rb off) s = .next t ∧
      t.lo rd = (s.readByte (s.lo rb + BitVec.ofNat 32 off + 1) ++ s.readByte (s.lo rb + BitVec.ofNat 32 off) :
        BitVec 16).setWidth 32 ∧ t.sw = s.sw ∧ t.mem = s.mem)

/-- Stores complete: the low 4, 1 or 2 bytes of x[Rd] go to the effective address, each byte routed on its own; bytes sent to the
program image, an unmapped address or an unattached display are discarded (R192, R194, R196; 20_memory.md R87, R92; misaligned
addresses are decision D13, per-byte routing D14). -/
def Obligations.Stores : Prop :=
  ∀ (rd rb : LoReg) (off : Nat) (s : State),
    (∃ t, exec (.str rd rb off) s = .next t ∧ StoreOutcome (s.lo rb + BitVec.ofNat 32 off) 4 (s.lo rd) s t) ∧
    (∃ t, exec (.strb rd rb off) s = .next t ∧ StoreOutcome (s.lo rb + BitVec.ofNat 32 off) 1 (s.lo rd) s t) ∧
    (∃ t, exec (.strh rd rb off) s = .next t ∧ StoreOutcome (s.lo rb + BitVec.ofNat 32 off) 2 (s.lo rd) s t)

/-- ADR completes with the pc-relative address, a multiple of 4 when the pc is even and the offset is one the encoding has; SW and
memory are unchanged (44_address_formation.md R210). -/
def Obligations.AddressFormation : Prop :=
  ∀ (rd : LoReg) (off : Nat) (s : State), ∃ t, exec (.adr rd off) s = .next t ∧
    t.lo rd = (s.pc &&& 0xFFFFFFFD) + BitVec.ofNat 32 off ∧ t.sw = s.sw ∧ t.mem = s.mem ∧
    (s.pc.getLsbD 0 = false → (Instr.adr rd off).wellFormed = true → (t.lo rd).toNat % 4 = 0)

/-! ### G8 and G9 -/

/-- The branches on one flag complete, taken exactly on their condition, from base pcn unmasked (45_branch.md R220, R221; 10_state.md
R50; the condition codes are decision D18 and the base decision D17). -/
def Obligations.BranchesOnOneFlag : Prop :=
  ∀ (off : Int) (s : State),
    BranchesWhen (.beq off) off s (s.flagZ = true) ∧ BranchesWhen (.bne off) off s (s.flagZ = false) ∧
    BranchesWhen (.bcs off) off s (s.flagC = true) ∧ BranchesWhen (.bcc off) off s (s.flagC = false) ∧
    BranchesWhen (.bmi off) off s (s.flagN = true) ∧ BranchesWhen (.bpl off) off s (s.flagN = false) ∧
    BranchesWhen (.bvs off) off s (s.flagV = true) ∧ BranchesWhen (.bvc off) off s (s.flagV = false)

/-- The comparison branches complete, taken exactly on their condition (same rules and decisions). -/
def Obligations.BranchesOnComparisons : Prop :=
  ∀ (off : Int) (s : State),
    BranchesWhen (.bhi off) off s (s.flagC = true ∧ s.flagZ = false) ∧
    BranchesWhen (.bls off) off s (s.flagC = false ∨ s.flagZ = true) ∧
    BranchesWhen (.bge off) off s (s.flagN = s.flagV) ∧
    BranchesWhen (.blt off) off s (s.flagN ≠ s.flagV) ∧
    BranchesWhen (.bgt off) off s (s.flagZ = false ∧ s.flagN = s.flagV) ∧
    BranchesWhen (.ble off) off s (s.flagZ = true ∨ s.flagN ≠ s.flagV)

/-- CMP then a branch: from the flags CMP (register) leaves, BEQ and BNE are equality and its negation, BCS, BCC, BHI and BLS the
unsigned orders, BGE, BLT, BGT and BLE the signed orders (R171 with R50; the codes are decision D18, assumption 8, and the base of
the target decision D17, assumption 21). -/
def Obligations.CompareThenBranchIsTheOrder : Prop :=
  ∀ (rd rs : LoReg) (s t : State) (off : Int), exec (.cmpReg rd rs) s = .next t →
    BranchesWhen (.beq off) off t (s.lo rd = s.lo rs) ∧
    BranchesWhen (.bne off) off t (s.lo rd ≠ s.lo rs) ∧
    BranchesWhen (.bcs off) off t ((s.lo rs).toNat ≤ (s.lo rd).toNat) ∧
    BranchesWhen (.bcc off) off t ((s.lo rd).toNat < (s.lo rs).toNat) ∧
    BranchesWhen (.bhi off) off t ((s.lo rs).toNat < (s.lo rd).toNat) ∧
    BranchesWhen (.bls off) off t ((s.lo rd).toNat ≤ (s.lo rs).toNat) ∧
    BranchesWhen (.bge off) off t ((s.lo rs).toInt ≤ (s.lo rd).toInt) ∧
    BranchesWhen (.blt off) off t ((s.lo rd).toInt < (s.lo rs).toInt) ∧
    BranchesWhen (.bgt off) off t ((s.lo rs).toInt < (s.lo rd).toInt) ∧
    BranchesWhen (.ble off) off t ((s.lo rd).toInt ≤ (s.lo rs).toInt)

/-- The branch with condition 0xE completes, taken exactly when the machine's parameter COND_E_TAKEN says so, whatever the flags
(45_branch.md R222; decision D16: for every value of the parameter). -/
def Obligations.BranchOnConditionE : Prop :=
  ∀ (off : Int) (s : State), BranchesWhen (.bCondE off) off s (s.cfg.condETaken = true)

/-- The unconditional branch completes: to pcn plus its offset, which in the word is twice its sign-extended 11-bit field, and
nothing else changes (45_branch.md R224; its bit positions are decision D1, its base D17 and, for an odd pc, the
advance D22). -/
def Obligations.UnconditionalBranch : Prop :=
  (∀ (off : Int) (s : State), exec (.b off) s = .next (s.setPc (s.pc + BitVec.ofInt 32 off))) ∧
  ∀ (s : State) (simm11 : BitVec 11), s.fetchWord = (0b11100#5 ++ simm11 : BitVec 16) →
    step s = .next (s.setPc (s.pc + 2 + (simm11.signExtend 32 <<< 1)))

/-- SWI, with any comment, completes and only advances the pc (45_branch.md R223; which word it is rests on decisions D1 and D18; for an
odd pc the advance is decision D22). -/
def Obligations.SoftwareInterruptOnlyAdvances : Prop :=
  (∀ (comment : Nat) (s : State), exec (.swi comment) s = .next s) ∧
  ∀ s : State, s.fetchWord &&& 0xFF00 = 0xDF00 → step s = .next (s.setPc (s.pc + 2))

/-- Every word of the classes U1 to U9 completes and only advances the pc (46_unrecognized.md R240; the classes are decision
D19; for an odd pc the advance is decision D22). -/
def Obligations.UnrecognizedWordsOnlyAdvance : Prop :=
  (∀ (x : BitVec 10) (y : BitVec 11) (z : BitVec 12) (s : State),
    exec (.unrecU1 y) s = .next s ∧ exec (.unrecU2 x) s = .next s ∧ exec (.unrecU3 z) s = .next s ∧
    exec (.unrecU4 z) s = .next s ∧ exec (.unrecU5 y) s = .next s ∧ exec (.unrecU6 z) s = .next s ∧
    exec (.unrecU7 z) s = .next s ∧ exec (.unrecU8 y) s = .next s ∧ exec (.unrecU9 z) s = .next s) ∧
  ∀ s : State,
    (s.fetchWord &&& 0xF800 = 0x1800 ∨ s.fetchWord &&& 0xFC00 = 0x4400 ∨ s.fetchWord &&& 0xF000 = 0x5000 ∨
      s.fetchWord &&& 0xF000 = 0x9000 ∨ s.fetchWord &&& 0xF800 = 0xA800 ∨ s.fetchWord &&& 0xF000 = 0xB000 ∨
      s.fetchWord &&& 0xF000 = 0xC000 ∨ s.fetchWord &&& 0xF800 = 0xE800 ∨ s.fetchWord &&& 0xF000 = 0xF000) →
    step s = .next (s.setPc (s.pc + 2))

/-! ### The bus -/

/-- With the parameters in their constraints, an address lies in at most one region, so the order of the range tests does not matter
(20_memory.md R71, R74). -/
def Obligations.RegionsDoNotOverlap : Prop :=
  ∀ (c : Config) (a : Nat), c.wf →
    (regionAt c a = .display ↔ c.displayBase ≤ a ∧ a < c.displayBase + 2 * c.displayCells) ∧
    (regionAt c a = .rom ↔ c.romBase ≤ a ∧ a < c.romBase + c.romWindow) ∧
    (regionAt c a = .wram ↔ c.wramBase ≤ a ∧ a < c.wramBase + c.wramSize)

/-- Reads of unmapped addresses and of the unattached display give 0 at every width, and writes there change nothing at all
(20_memory.md R80, R84, R91). -/
def Obligations.UnmappedAndUnattachedDisplay : Prop :=
  ∀ (s : State) (a v : Word) (n : Nat), n ≤ 4 →
    (∀ k < n, s.region (a + BitVec.ofNat 32 k) = .unmapped ∨
      (s.region (a + BitVec.ofNat 32 k) = .display ∧ s.displayAttached = false)) →
    s.memRead a n = 0 ∧ s.memWrite a n v = s

/-- A read in the program-image region: the image byte below IMG_LEN, 0xFF from there to the end of the window, and 0 at every width
while no image is attached (20_memory.md R82, R83; decisions D26, D20). -/
def Obligations.ImageReads : Prop :=
  ∀ (s : State) (a : Word) (n : Nat), n ≤ 4 → (∀ k < n, s.region (a + BitVec.ofNat 32 k) = .rom) →
    (s.romAttached = false → s.memRead a n = 0) ∧
    (s.romAttached = true → ∀ k < n, (s.memRead a n).extractLsb' (8 * k) 8 =
      if h : (a + BitVec.ofNat 32 k).toNat - s.cfg.romBase < s.img.length then
        s.img[(a + BitVec.ofNat 32 k).toNat - s.cfg.romBase] else 0xFF)

/-- A write into the program-image region changes nothing, and no bus write anywhere changes IMG (20_memory.md R90). -/
def Obligations.ImageIsReadOnly : Prop :=
  ∀ (s : State) (a v : Word) (n : Nat),
    ((∀ k < n, s.region (a + BitVec.ofNat 32 k) = .rom) → s.memWrite a n v = s) ∧ (s.memWrite a n v).img = s.img

/-- What is written is read back, at every width and alignment, when all its bytes are in working memory or the attached display
(20_memory.md R92, R105; 90_conflicts.md C12). -/
def Obligations.StoreThenLoadReadsBack : Prop :=
  ∀ (s : State) (a v : Word) (n : Nat), n ≤ 4 → (∀ k < n, s.writable (a + BitVec.ofNat 32 k) = true) →
    (s.memWrite a n v).memRead a n = v &&& BitVec.ofNat 32 (2 ^ (8 * n) - 1)

/-- A byte write in the attached display region patches one half of its cell and keeps the other half and every other cell
(20_memory.md R88). -/
def Obligations.DisplayByteWritePatchesHalfACell : Prop :=
  ∀ (s : State) (a : Word) (b : Byte) (c c' : Nat), s.region a = .display → s.displayAttached = true →
    (a.toNat = s.cfg.displayBase + 2 * c + 1 →
      (s.writeByte a b).dispCell c = (b ++ (s.dispCell c).extractLsb' 0 8 : BitVec 16)) ∧
    (a.toNat = s.cfg.displayBase + 2 * c →
      (s.writeByte a b).dispCell c = ((s.dispCell c).extractLsb' 8 8 ++ b : BitVec 16)) ∧
    (a.toNat ≠ s.cfg.displayBase + 2 * c' → a.toNat ≠ s.cfg.displayBase + 2 * c' + 1 →
      (s.writeByte a b).dispCell c' = s.dispCell c')

/-- A cell-aligned 16-bit access in the attached display region reads the whole cell, and writes it in one operation: the result is
the same state (20_memory.md R86, R89). -/
def Obligations.DisplayFastPath : Prop :=
  ∀ (s : State) (a v : Word) (c : Nat), s.mem.wf → s.displayAttached = true → c < s.cfg.displayCells →
    s.cfg.displayBase + 2 * s.cfg.displayCells ≤ 2 ^ 32 → a.toNat = s.cfg.displayBase + 2 * c →
    s.memRead a 2 = (s.dispCell c).setWidth 32 ∧ s.memWrite a 2 v = s.setDispCell c (v.setWidth 16)

/-- A halfword stored over the one right after the storing instruction is what the next step executes (70_reset_and_hazards.md R283;
20_memory.md R102). -/
def Obligations.NextStepExecutesAStoredHalfword : Prop :=
  ∀ (s t : State) (rd rb : LoReg) (off : Nat), s.pc.getLsbD 0 = false → decodeWord s.fetchWord = .strh rd rb off →
    s.lo rb + BitVec.ofNat 32 off = s.pc + 2 → s.writable (s.pc + 2) = true → s.writable (s.pc + 3) = true →
    step s = .next t → step t = exec (decodeWord ((s.lo rd).setWidth 16)) (t.setPc (t.pc + 2))

/-! ### Reset -/

/-- Reset, from any state: every register and SW at the value of the reset table, memory, image, attachments and parameters untouched;
a second reset changes nothing more (10_state.md R54; 00_scope.md R20; 70_reset_and_hazards.md R270, R273; the zero bits of SW are
decision D4). -/
def Obligations.ResetSetsTheTableAndKeepsTheRest : Prop :=
  ∀ s : State,
    (∀ r : RegIdx, s.resetPort.reg r =
      if r = 13 then BitVec.ofNat 32 s.cfg.spReset else if r = 15 then BitVec.ofNat 32 s.cfg.romBase else 0) ∧
    s.resetPort.sw = 0x00000020 ∧
    s.resetPort.mem = s.mem ∧ s.resetPort.img = s.img ∧ s.resetPort.displayAttached = s.displayAttached ∧
    s.resetPort.romAttached = s.romAttached ∧ s.resetPort.cfg = s.cfg ∧
    s.resetPort.resetPort = s.resetPort

/-- After reset the pc is ROM_BASE and T is set, and with an attached image of two bytes or more the first step fetches
IMG[0] | IMG[1] << 8 (70_reset_and_hazards.md R271). -/
def Obligations.FirstFetchAfterReset : Prop :=
  ∀ (s : State) (b0 b1 : Byte) (rest : List Byte), s.cfg.wf → s.romAttached = true → s.img = b0 :: b1 :: rest →
    s.resetPort.pc.toNat = s.cfg.romBase ∧ s.resetPort.flagT = true ∧
    s.resetPort.fetchWord = b0.setWidth 16 ||| (b1.setWidth 16 <<< 8)

/-- The model's way of placing a word from outside (assumption 6): with the parameters in their constraints, the next step fetches
exactly that word. -/
def Obligations.PlacedWordIsFetched : Prop :=
  ∀ (s : State) (w : Nat), s.cfg.wf → (s.withFetchWord 16 w).fetchWord = BitVec.ofNat 16 w
end

