-- ==== Sys2Proof/Laws/Memory.lean ====
section
/-! SUPPORT. The laws of the byte store: a read after a write, and that every operation keeps the canonical form. -/

namespace Sys2Proof.Machine.Memory

theorem get_erase (m : Memory) (a a' : Nat) : (m.erase a).get a' = if a = a' then unlisted else m.get a' := by
  induction m with
  | nil => simp [erase, get]
  | cons e m ih =>
    obtain ⟨k, b⟩ := e
    simp only [erase, ne_eq, decide_not] at ih ⊢
    by_cases hk : k = a
    · subst hk
      simp only [List.filter_cons, decide_true, Bool.not_true, Bool.false_eq_true, ↓reduceIte, ih, get]
      by_cases h : k = a' <;> simp [h]
    · simp only [List.filter_cons, hk, decide_false, Bool.not_false, ↓reduceIte, get, ih]
      by_cases h : k = a'
      · subst h; simp [Ne.symm hk]
      · simp [h]

theorem get_insert (m : Memory) (a a' : Nat) (b : Byte) (h : ∀ e ∈ m, e.1 ≠ a) :
    (m.insert a b).get a' = if a = a' then b else m.get a' := by
  induction m with
  | nil => simp [insert, get]
  | cons e m ih =>
    obtain ⟨k, c⟩ := e
    have hk : k ≠ a := h (k, c) (by simp)
    have ih := ih (fun e he => h e (by simp [he]))
    by_cases hlt : a < k
    · simp [insert, hlt, get]
    · simp only [insert, hlt, ↓reduceIte, get, ih]
      by_cases hka : k = a'
      · subst hka; simp [Ne.symm hk]
      · simp [hka]

/-- A read after a write gives the value written at the address written, and elsewhere what was there. -/
theorem get_set (m : Memory) (a a' : Nat) (b : Byte) : (m.set a b).get a' = if a = a' then b else m.get a' := by
  by_cases hb : b = unlisted
  · simp [set, hb, get_erase]
  · have h : ∀ e ∈ m.erase a, e.1 ≠ a := by
      intro e he
      simpa [erase] using (List.mem_filter.mp he).2
    simp only [set, hb, ↓reduceIte, get_insert _ _ _ _ h, get_erase]
    by_cases ha : a = a' <;> simp [ha]

theorem mem_insert (m : Memory) (a : Nat) (b : Byte) (e : Host.Cell) : e ∈ m.insert a b ↔ e = (a, b) ∨ e ∈ m := by
  induction m with
  | nil => simp [insert]
  | cons f m ih =>
    obtain ⟨k, c⟩ := f
    by_cases hlt : a < k
    · simp [insert, hlt]
    · simp only [insert, hlt, ↓reduceIte, List.mem_cons, ih]
      tauto

/-- The only entry a write can add is the one it writes. -/
theorem mem_set (m : Memory) (a : Nat) (b : Byte) (e : Host.Cell) (h : e ∈ m.set a b) : e.1 = a ∨ e ∈ m := by
  by_cases hb : b = unlisted
  · simp only [set, hb, ↓reduceIte, erase] at h
    exact .inr (List.mem_filter.mp h).1
  · simp only [set, hb, ↓reduceIte, mem_insert] at h
    rcases h with rfl | h
    · exact .inl rfl
    · exact .inr (List.mem_filter.mp h).1

theorem wf_erase (m : Memory) (a : Nat) (h : m.wf) : (m.erase a).wf :=
  ⟨h.1.filter _, fun e he => h.2 e (List.mem_filter.mp he).1⟩

theorem wf_insert (m : Memory) (a : Nat) (b : Byte) (hm : m.wf) (ha : ∀ e ∈ m, e.1 ≠ a) (hb : b ≠ 0#8) :
    (m.insert a b).wf := by
  refine ⟨?_, fun e he => ?_⟩
  · induction m with
    | nil => simp [insert]
    | cons f m ih =>
      obtain ⟨k, c⟩ := f
      have hp := List.pairwise_cons.mp hm.1
      have hka : k ≠ a := ha (k, c) (by simp)
      by_cases hlt : a < k
      · simp only [insert, hlt, ↓reduceIte, List.pairwise_cons]
        exact ⟨fun e he => by
          rcases List.mem_cons.mp he with rfl | he
          · exact hlt
          · exact lt_trans hlt (hp.1 e he), hp.1, hp.2⟩
      · have ih := ih ⟨hp.2, fun e he => hm.2 e (by simp [he])⟩ (fun e he => ha e (by simp [he]))
        simp only [insert, hlt, ↓reduceIte, List.pairwise_cons]
        refine ⟨fun e he => ?_, ih⟩
        rcases (mem_insert m a b e).mp he with rfl | he
        · show k < a
          omega
        · exact hp.1 e he
  · rcases (mem_insert m a b e).mp he with rfl | he
    · exact hb
    · exact hm.2 e he

/-- A write keeps the canonical form. -/
theorem wf_set (m : Memory) (a : Nat) (b : Byte) (h : m.wf) : (m.set a b).wf := by
  by_cases hb : b = unlisted
  · simpa [set, hb] using wf_erase m a h
  · simp only [set, hb, ↓reduceIte]
    refine wf_insert _ a b (wf_erase m a h) (fun e he => ?_) hb
    simpa [erase] using (List.mem_filter.mp he).2

/-- Two canonical memories that read alike everywhere are the same list. -/
theorem eq_of_get_eq (m m' : Memory) (h : m.wf) (h' : m'.wf) (e : ∀ a, m.get a = m'.get a) : m = m' := by
  induction m generalizing m' with
  | nil =>
    cases m' with
    | nil => rfl
    | cons f m' =>
      exact absurd (by simpa [get, unlisted] using e f.1) (Ne.symm (h'.2 f (by simp)))
  | cons f m ih =>
    obtain ⟨k, b⟩ := f
    have hp := List.pairwise_cons.mp h.1
    have low : ∀ (l : Memory) (a : Nat), (∀ x ∈ l, a < x.1) → l.get a = 0#8 := by
      intro l a hl
      induction l with
      | nil => rfl
      | cons x l ihl =>
        have := hl x (by simp)
        simp only [get, Nat.ne_of_gt this, ↓reduceIte]
        exact ihl fun y hy => hl y (by simp [hy])
    cases m' with
    | nil => exact absurd (by simpa [get, unlisted] using e k) (h.2 (k, b) (by simp))
    | cons g m' =>
      obtain ⟨k', b'⟩ := g
      have hp' := List.pairwise_cons.mp h'.1
      have hk : k = k' := by
        rcases Nat.lt_trichotomy k k' with hlt | heq | hgt
        · have := e k
          rw [low ((k', b') :: m') k (by
            intro x hx
            rcases List.mem_cons.mp hx with rfl | hx
            · exact hlt
            · exact lt_trans hlt (hp'.1 x hx))] at this
          exact absurd (by simpa [get] using this) (h.2 (k, b) (by simp))
        · exact heq
        · have := e k'
          rw [low ((k, b) :: m) k' (by
            intro x hx
            rcases List.mem_cons.mp hx with rfl | hx
            · exact hgt
            · exact lt_trans hgt (hp.1 x hx))] at this
          exact absurd (by simpa [get] using this.symm) (h'.2 (k', b') (by simp))
      subst hk
      have hb : b = b' := by simpa [get] using e k
      subst hb
      congr 1
      refine ih m' ⟨hp.2, fun x hx => h.2 x (by simp [hx])⟩ ⟨hp'.2, fun x hx => h'.2 x (by simp [hx])⟩ fun a => ?_
      by_cases ha : k = a
      · subst ha
        rw [low m k hp.1, low m' k hp'.1]
      · simpa [get, ha] using e a

/-- Writing the byte already there leaves a canonical memory as it is. -/
theorem set_get_self (m : Memory) (a : Nat) (h : m.wf) : m.set a (m.get a) = m :=
  eq_of_get_eq _ _ (wf_set m a _ h) h fun a' => by
    rw [get_set]
    by_cases ha : a = a' <;> simp [ha]

end Sys2Proof.Machine.Memory
end

