-- ==== Sys2Proof/Laws/State.lean ====
section
/-! SUPPORT. One lemma per field per update of the state, and what the register and flag accessors give after an update. -/

namespace Sys2Proof.Machine

variable (s : State)

/-! ### Registers -/

@[simp] theorem setReg_sw (i : RegIdx) (v : Word) : (s.setReg i v).sw = s.sw := rfl
@[simp] theorem setReg_mem (i : RegIdx) (v : Word) : (s.setReg i v).mem = s.mem := rfl
@[simp] theorem setReg_img (i : RegIdx) (v : Word) : (s.setReg i v).img = s.img := rfl
@[simp] theorem setReg_displayAttached (i : RegIdx) (v : Word) : (s.setReg i v).displayAttached = s.displayAttached := rfl
@[simp] theorem setReg_romAttached (i : RegIdx) (v : Word) : (s.setReg i v).romAttached = s.romAttached := rfl
@[simp] theorem setReg_cfg (i : RegIdx) (v : Word) : (s.setReg i v).cfg = s.cfg := rfl

@[simp] theorem reg_setReg (i j : RegIdx) (v : Word) : (s.setReg i v).reg j = if i = j then v else s.reg j := by
  simp [State.reg, State.setReg, Vector.getElem_set, Fin.ext_iff]

theorem loIdx_val (r : LoReg) : (loIdx r).val = r.val := rfl

@[simp] theorem loIdx_inj (r r' : LoReg) : loIdx r = loIdx r' ↔ r = r' := by
  simp [loIdx, Fin.ext_iff]

/-- An operand register is never the pc, nor any of x[8] to x[14]. -/
theorem loIdx_ne_of_le (r : LoReg) (i : RegIdx) (h : 8 ≤ i.val) : loIdx r ≠ i := by
  intro e
  have := congrArg Fin.val e
  rw [loIdx_val] at this
  omega

@[simp] theorem loIdx_ne_pc (r : LoReg) : loIdx r ≠ 15 := loIdx_ne_of_le r 15 (by decide)
@[simp] theorem pc_ne_loIdx (r : LoReg) : (15 : RegIdx) ≠ loIdx r := (loIdx_ne_pc r).symm

@[simp] theorem setLo_sw (r : LoReg) (v : Word) : (s.setLo r v).sw = s.sw := rfl
@[simp] theorem setLo_mem (r : LoReg) (v : Word) : (s.setLo r v).mem = s.mem := rfl
@[simp] theorem setLo_img (r : LoReg) (v : Word) : (s.setLo r v).img = s.img := rfl
@[simp] theorem setLo_displayAttached (r : LoReg) (v : Word) : (s.setLo r v).displayAttached = s.displayAttached := rfl
@[simp] theorem setLo_romAttached (r : LoReg) (v : Word) : (s.setLo r v).romAttached = s.romAttached := rfl
@[simp] theorem setLo_cfg (r : LoReg) (v : Word) : (s.setLo r v).cfg = s.cfg := rfl
@[simp] theorem reg_setLo (r : LoReg) (j : RegIdx) (v : Word) :
    (s.setLo r v).reg j = if loIdx r = j then v else s.reg j := reg_setReg s _ j v
@[simp] theorem lo_setLo (r r' : LoReg) (v : Word) : (s.setLo r v).lo r' = if r = r' then v else s.lo r' := by
  simp [State.lo]
@[simp] theorem pc_setLo (r : LoReg) (v : Word) : (s.setLo r v).pc = s.pc := by simp [State.pc]

@[simp] theorem setPc_sw (v : Word) : (s.setPc v).sw = s.sw := rfl
@[simp] theorem setPc_mem (v : Word) : (s.setPc v).mem = s.mem := rfl
@[simp] theorem setPc_img (v : Word) : (s.setPc v).img = s.img := rfl
@[simp] theorem setPc_displayAttached (v : Word) : (s.setPc v).displayAttached = s.displayAttached := rfl
@[simp] theorem setPc_romAttached (v : Word) : (s.setPc v).romAttached = s.romAttached := rfl
@[simp] theorem setPc_cfg (v : Word) : (s.setPc v).cfg = s.cfg := rfl
@[simp] theorem reg_setPc (j : RegIdx) (v : Word) : (s.setPc v).reg j = if 15 = j then v else s.reg j :=
  reg_setReg s _ j v
@[simp] theorem lo_setPc (r : LoReg) (v : Word) : (s.setPc v).lo r = s.lo r := by simp [State.lo]
@[simp] theorem pc_setPc (v : Word) : (s.setPc v).pc = v := by simp [State.pc]

/-- Writing back the value a register holds changes nothing. -/
theorem setReg_reg_self (i : RegIdx) : s.setReg i (s.reg i) = s := by
  simp [State.setReg, State.reg]

theorem setReg_setReg_same (i : RegIdx) (v w : Word) : (s.setReg i v).setReg i w = s.setReg i w := by
  simp [State.setReg]

theorem setReg_comm (i j : RegIdx) (v w : Word) (h : i ≠ j) :
    (s.setReg i v).setReg j w = (s.setReg j w).setReg i v := by
  have h' : i.val ≠ j.val := fun e => h (Fin.ext e)
  simp only [State.setReg, Vector.set_comm v w h']

/-- The pc write is the register write of x[15]; the operand write is that of x[r]. -/
theorem setPc_eq (v : Word) : s.setPc v = s.setReg 15 v := rfl
theorem setLo_eq (r : LoReg) (v : Word) : s.setLo r v = s.setReg (loIdx r) v := rfl

/-! ### Flags -/

@[simp] theorem setNZCV_regs (f : NZCV) : (s.setNZCV f).regs = s.regs := rfl
@[simp] theorem setNZCV_mem (f : NZCV) : (s.setNZCV f).mem = s.mem := rfl
@[simp] theorem setNZCV_img (f : NZCV) : (s.setNZCV f).img = s.img := rfl
@[simp] theorem setNZCV_displayAttached (f : NZCV) : (s.setNZCV f).displayAttached = s.displayAttached := rfl
@[simp] theorem setNZCV_romAttached (f : NZCV) : (s.setNZCV f).romAttached = s.romAttached := rfl
@[simp] theorem setNZCV_cfg (f : NZCV) : (s.setNZCV f).cfg = s.cfg := rfl
@[simp] theorem reg_setNZCV (f : NZCV) (i : RegIdx) : (s.setNZCV f).reg i = s.reg i := rfl
@[simp] theorem lo_setNZCV (f : NZCV) (r : LoReg) : (s.setNZCV f).lo r = s.lo r := rfl
@[simp] theorem pc_setNZCV (f : NZCV) : (s.setNZCV f).pc = s.pc := rfl

/-- Bit by bit, the status word after a flag write. -/
theorem sw_setNZCV_bit (f : NZCV) (i : Nat) : (s.setNZCV f).sw.getLsbD i =
    if i < 28 then s.sw.getLsbD i
    else if i = 28 then f.v else if i = 29 then f.c else if i = 30 then f.z else if i = 31 then f.n else false := by
  simp only [State.setNZCV, BitVec.getLsbD_append, BitVec.getLsbD_extractLsb', BitVec.getLsbD_ofBool]
  by_cases h : i < 28
  · simp [h]
  · by_cases h1 : i = 28
    · simp [h1]
    · by_cases h2 : i = 29
      · simp [h2]
      · by_cases h3 : i = 30
        · simp [h3]
        · by_cases h4 : i = 31
          · simp [h4]
          · have e : i - 28 - 1 - 1 - 1 ≠ 0 := by omega
            have e1 : ¬ i - 28 < 1 := by omega
            have e2 : ¬ i - 28 - 1 < 1 := by omega
            have e3 : ¬ i - 28 - 1 - 1 < 1 := by omega
            simp [h, h1, h2, h3, h4, e, e1, e2, e3]

@[simp] theorem flagN_setNZCV (f : NZCV) : (s.setNZCV f).flagN = f.n := (sw_setNZCV_bit s f 31).trans (by simp)
@[simp] theorem flagZ_setNZCV (f : NZCV) : (s.setNZCV f).flagZ = f.z := (sw_setNZCV_bit s f 30).trans (by simp)
@[simp] theorem flagC_setNZCV (f : NZCV) : (s.setNZCV f).flagC = f.c := (sw_setNZCV_bit s f 29).trans (by simp)
@[simp] theorem flagV_setNZCV (f : NZCV) : (s.setNZCV f).flagV = f.v := (sw_setNZCV_bit s f 28).trans (by simp)
@[simp] theorem flagT_setNZCV (f : NZCV) : (s.setNZCV f).flagT = s.flagT := sw_setNZCV_bit s f 5
@[simp] theorem nzcv_setNZCV (f : NZCV) : (s.setNZCV f).nzcv = f := by simp [State.nzcv]

/-- The bits of SW that are no flag keep their values. -/
@[simp] theorem sw_setNZCV_rest (f : NZCV) : (s.setNZCV f).sw.extractLsb' 0 28 = s.sw.extractLsb' 0 28 := by
  apply BitVec.eq_of_getLsbD_eq
  intro i hi
  simp [hi, sw_setNZCV_bit]

@[simp] theorem flagN_setReg (i : RegIdx) (v : Word) : (s.setReg i v).flagN = s.flagN := rfl
@[simp] theorem flagZ_setReg (i : RegIdx) (v : Word) : (s.setReg i v).flagZ = s.flagZ := rfl
@[simp] theorem flagC_setReg (i : RegIdx) (v : Word) : (s.setReg i v).flagC = s.flagC := rfl
@[simp] theorem flagV_setReg (i : RegIdx) (v : Word) : (s.setReg i v).flagV = s.flagV := rfl
@[simp] theorem flagN_setLo (r : LoReg) (v : Word) : (s.setLo r v).flagN = s.flagN := rfl
@[simp] theorem flagZ_setLo (r : LoReg) (v : Word) : (s.setLo r v).flagZ = s.flagZ := rfl
@[simp] theorem flagC_setLo (r : LoReg) (v : Word) : (s.setLo r v).flagC = s.flagC := rfl
@[simp] theorem flagV_setLo (r : LoReg) (v : Word) : (s.setLo r v).flagV = s.flagV := rfl
@[simp] theorem flagN_setPc (v : Word) : (s.setPc v).flagN = s.flagN := rfl
@[simp] theorem flagZ_setPc (v : Word) : (s.setPc v).flagZ = s.flagZ := rfl
@[simp] theorem flagC_setPc (v : Word) : (s.setPc v).flagC = s.flagC := rfl
@[simp] theorem flagV_setPc (v : Word) : (s.setPc v).flagV = s.flagV := rfl
@[simp] theorem nzcv_setReg (i : RegIdx) (v : Word) : (s.setReg i v).nzcv = s.nzcv := rfl
@[simp] theorem nzcv_setLo (r : LoReg) (v : Word) : (s.setLo r v).nzcv = s.nzcv := rfl
@[simp] theorem nzcv_setPc (v : Word) : (s.setPc v).nzcv = s.nzcv := rfl

/-- The flag policies are flag writes. -/
theorem setLogical_eq (r : Word) (co : Bool) :
    s.setLogical r co = s.setNZCV ⟨r.msb, r == 0#32, co, s.flagV⟩ := rfl
theorem setAdd_eq (a b : Word) (cin : Bool) : s.setAdd a b cin = s.setNZCV (addFlags a b cin) := rfl
theorem setSub_eq (a b : Word) (cin : Bool) : s.setSub a b cin = s.setNZCV (subFlags a b cin) := rfl
theorem setMul_eq (r : Word) : s.setMul r = s.setNZCV ⟨r.msb, r == 0#32, false, false⟩ := rfl

/-- A flag write and a register write commute. -/
theorem setNZCV_setReg (f : NZCV) (i : RegIdx) (v : Word) : (s.setReg i v).setNZCV f = (s.setNZCV f).setReg i v := rfl

/-- A pc write undone is no write. -/
theorem setPc_pc : s.setPc s.pc = s := setReg_reg_self s 15

@[simp] theorem setPc_setPc (v w : Word) : (s.setPc v).setPc w = s.setPc w := setReg_setReg_same s 15 v w

/-! ### The advance -/

@[simp] theorem advance_pc : s.advance.pc = s.pc + 2 := by simp [State.advance]
@[simp] theorem advance_sw : s.advance.sw = s.sw := rfl
@[simp] theorem advance_mem : s.advance.mem = s.mem := rfl
@[simp] theorem advance_img : s.advance.img = s.img := rfl
@[simp] theorem advance_displayAttached : s.advance.displayAttached = s.displayAttached := rfl
@[simp] theorem advance_romAttached : s.advance.romAttached = s.romAttached := rfl
@[simp] theorem advance_cfg : s.advance.cfg = s.cfg := rfl
@[simp] theorem advance_lo (r : LoReg) : s.advance.lo r = s.lo r := by simp [State.advance]

end Sys2Proof.Machine
end

