-- ==== Sys2Proof/Laws/Bus.lean ====
section
/-! SUPPORT. The laws of the bus: what a byte read gives after a byte write, the wide accesses in closed form, and what a
write can change. -/

namespace Sys2Proof.Machine

variable (s : State)

/-! ### The fields a write leaves alone -/

@[simp] theorem setDispCell_regs (c : Nat) (v : Half) : (s.setDispCell c v).regs = s.regs := rfl
@[simp] theorem setDispCell_sw (c : Nat) (v : Half) : (s.setDispCell c v).sw = s.sw := rfl
@[simp] theorem setDispCell_img (c : Nat) (v : Half) : (s.setDispCell c v).img = s.img := rfl
@[simp] theorem setDispCell_displayAttached (c : Nat) (v : Half) : (s.setDispCell c v).displayAttached = s.displayAttached := rfl
@[simp] theorem setDispCell_romAttached (c : Nat) (v : Half) : (s.setDispCell c v).romAttached = s.romAttached := rfl
@[simp] theorem setDispCell_cfg (c : Nat) (v : Half) : (s.setDispCell c v).cfg = s.cfg := rfl

/-- A byte write is a write of `mem` alone. -/
theorem writeByte_eq (a : Word) (b : Byte) : ∃ m, s.writeByte a b = { s with mem := m } := by
  unfold State.writeByte
  split
  · dsimp only
    split
    · exact ⟨_, rfl⟩
    · exact ⟨s.mem, rfl⟩
  · exact ⟨s.mem, rfl⟩
  · exact ⟨_, rfl⟩
  · exact ⟨s.mem, rfl⟩

/-- So is a write of any width. -/
theorem memWrite_eq (a : Word) (n : Nat) (v : Word) : ∃ m, s.memWrite a n v = { s with mem := m } := by
  induction n with
  | zero => exact ⟨s.mem, rfl⟩
  | succ n ih =>
    obtain ⟨m, hm⟩ := ih
    obtain ⟨m', hm'⟩ := writeByte_eq { s with mem := m } (a + BitVec.ofNat 32 n) (v.extractLsb' (8 * n) 8)
    exact ⟨m', by rw [State.memWrite, hm, hm']⟩

@[simp] theorem writeByte_regs (a : Word) (b : Byte) : (s.writeByte a b).regs = s.regs := by
  obtain ⟨m, h⟩ := writeByte_eq s a b; rw [h]
@[simp] theorem writeByte_sw (a : Word) (b : Byte) : (s.writeByte a b).sw = s.sw := by
  obtain ⟨m, h⟩ := writeByte_eq s a b; rw [h]
@[simp] theorem writeByte_img (a : Word) (b : Byte) : (s.writeByte a b).img = s.img := by
  obtain ⟨m, h⟩ := writeByte_eq s a b; rw [h]
@[simp] theorem writeByte_displayAttached (a : Word) (b : Byte) : (s.writeByte a b).displayAttached = s.displayAttached := by
  obtain ⟨m, h⟩ := writeByte_eq s a b; rw [h]
@[simp] theorem writeByte_romAttached (a : Word) (b : Byte) : (s.writeByte a b).romAttached = s.romAttached := by
  obtain ⟨m, h⟩ := writeByte_eq s a b; rw [h]
@[simp] theorem writeByte_cfg (a : Word) (b : Byte) : (s.writeByte a b).cfg = s.cfg := by
  obtain ⟨m, h⟩ := writeByte_eq s a b; rw [h]
@[simp] theorem writeByte_region (a : Word) (b : Byte) (x : Word) : (s.writeByte a b).region x = s.region x := by
  simp [State.region]
@[simp] theorem writeByte_writable (a : Word) (b : Byte) (x : Word) : (s.writeByte a b).writable x = s.writable x := by
  simp [State.writable]

@[simp] theorem memWrite_regs (a : Word) (n : Nat) (v : Word) : (s.memWrite a n v).regs = s.regs := by
  obtain ⟨m, h⟩ := memWrite_eq s a n v; rw [h]
@[simp] theorem memWrite_sw (a : Word) (n : Nat) (v : Word) : (s.memWrite a n v).sw = s.sw := by
  obtain ⟨m, h⟩ := memWrite_eq s a n v; rw [h]
@[simp] theorem memWrite_img (a : Word) (n : Nat) (v : Word) : (s.memWrite a n v).img = s.img := by
  obtain ⟨m, h⟩ := memWrite_eq s a n v; rw [h]
@[simp] theorem memWrite_displayAttached (a : Word) (n : Nat) (v : Word) :
    (s.memWrite a n v).displayAttached = s.displayAttached := by
  obtain ⟨m, h⟩ := memWrite_eq s a n v; rw [h]
@[simp] theorem memWrite_romAttached (a : Word) (n : Nat) (v : Word) : (s.memWrite a n v).romAttached = s.romAttached := by
  obtain ⟨m, h⟩ := memWrite_eq s a n v; rw [h]
@[simp] theorem memWrite_cfg (a : Word) (n : Nat) (v : Word) : (s.memWrite a n v).cfg = s.cfg := by
  obtain ⟨m, h⟩ := memWrite_eq s a n v; rw [h]
@[simp] theorem reg_memWrite (a : Word) (n : Nat) (v : Word) (i : RegIdx) : (s.memWrite a n v).reg i = s.reg i := by
  simp [State.reg]
@[simp] theorem lo_memWrite (a : Word) (n : Nat) (v : Word) (r : LoReg) : (s.memWrite a n v).lo r = s.lo r := by
  simp [State.lo]
@[simp] theorem pc_memWrite (a : Word) (n : Nat) (v : Word) : (s.memWrite a n v).pc = s.pc := by simp [State.pc]
@[simp] theorem nzcv_memWrite (a : Word) (n : Nat) (v : Word) : (s.memWrite a n v).nzcv = s.nzcv := by
  simp [State.nzcv, State.flagN, State.flagZ, State.flagC, State.flagV]
@[simp] theorem memWrite_region (a : Word) (n : Nat) (v x : Word) : (s.memWrite a n v).region x = s.region x := by
  simp [State.region]
@[simp] theorem memWrite_writable (a : Word) (n : Nat) (v x : Word) : (s.memWrite a n v).writable x = s.writable x := by
  simp [State.writable]

/-! ### Regions -/

/-- What the arbiter's answer says about the address. -/
theorem regionAt_display (c : Config) (a : Nat) (h : regionAt c a = .display) :
    c.displayBase ≤ a ∧ a < c.displayBase + 2 * c.displayCells := by
  unfold regionAt at h
  split at h
  · assumption
  · split at h
    · cases h
    · split at h <;> cases h

theorem regionAt_display_iff (c : Config) (a : Nat) :
    regionAt c a = .display ↔ c.displayBase ≤ a ∧ a < c.displayBase + 2 * c.displayCells :=
  ⟨regionAt_display c a, fun h => by simp [regionAt, h]⟩

/-- The reads of the other half-cell of an address in the display region stay in the region. -/
theorem region_display_cell (c : Config) (a o : Nat) (h : regionAt c a = .display)
    (ho : o / 2 = (a - c.displayBase) / 2) : regionAt c (c.displayBase + o) = .display := by
  have := regionAt_display c a h
  rw [regionAt_display_iff]
  omega

/-! ### Bytes -/

/-- The bytes of a display cell. -/
theorem dispCell_lo (c : Nat) : (s.dispCell c).extractLsb' 0 8 = s.mem.get (s.cfg.displayBase + 2 * c) := by
  unfold State.dispCell
  apply BitVec.eq_of_getLsbD_eq
  intro i hi
  rw [BitVec.getLsbD_extractLsb', BitVec.getLsbD_append]
  simp [hi]

theorem dispCell_hi (c : Nat) : (s.dispCell c).extractLsb' 8 8 = s.mem.get (s.cfg.displayBase + 2 * c + 1) := by
  unfold State.dispCell
  apply BitVec.eq_of_getLsbD_eq
  intro i hi
  rw [BitVec.getLsbD_extractLsb', BitVec.getLsbD_append]
  simp [hi]

theorem append_lo (x y : Byte) : (x ++ y : BitVec 16).extractLsb' 0 8 = y := by
  apply BitVec.eq_of_getLsbD_eq
  intro i hi
  rw [BitVec.getLsbD_extractLsb', BitVec.getLsbD_append]
  simp [hi]

theorem append_hi (x y : Byte) : (x ++ y : BitVec 16).extractLsb' 8 8 = x := by
  apply BitVec.eq_of_getLsbD_eq
  intro i hi
  rw [BitVec.getLsbD_extractLsb', BitVec.getLsbD_append]
  simp [hi]

theorem halves (v : Half) : (v.extractLsb' 8 8 ++ v.extractLsb' 0 8 : BitVec 16) = v := by
  apply BitVec.eq_of_getLsbD_eq
  intro i hi
  rw [BitVec.getLsbD_append]
  by_cases h : i < 8
  · simp [h]
  · have h8 : i - 8 < 8 := by omega
    have e : 8 + (i - 8) = i := by omega
    simp [h, h8, e]

/-- A display byte is the stored byte of its address (20_memory.md R79). -/
theorem readByte_display (a : Word) (h : s.region a = .display) :
    s.readByte a = if s.displayAttached then s.mem.get a.toNat else 0 := by
  have hr := regionAt_display _ _ h
  simp only [State.readByte, h]
  split
  · split
    · rw [dispCell_lo]; congr 1; omega
    · rw [dispCell_hi]; congr 1; omega
  · rfl

theorem readByte_wram (a : Word) (h : s.region a = .wram) : s.readByte a = s.mem.get a.toNat := by
  simp only [State.readByte, h]

theorem readByte_rom (a : Word) (h : s.region a = .rom) :
    s.readByte a = if s.romAttached then s.img[a.toNat - s.cfg.romBase]?.getD 0xFF else 0 := by
  simp only [State.readByte, h]

theorem readByte_unmapped (a : Word) (h : s.region a = .unmapped) : s.readByte a = 0 := by
  simp only [State.readByte, h]

/-- What a byte write leaves in the store. -/
theorem writeByte_get (a : Word) (b : Byte) (x : Nat) :
    (s.writeByte a b).mem.get x = if s.writable a ∧ x = a.toNat then b else s.mem.get x := by
  cases h : s.region a with
  | display =>
    have hr := regionAt_display _ _ h
    simp only [State.writeByte, State.writable, h]
    by_cases hd : s.displayAttached
    · simp only [hd, ↓reduceIte, State.setDispCell, Memory.get_set, true_and]
      by_cases hp : (a.toNat - s.cfg.displayBase) % 2 = 0
      · simp only [hp, ↓reduceIte, append_lo, append_hi, dispCell_hi]
        by_cases h1 : s.cfg.displayBase + 2 * ((a.toNat - s.cfg.displayBase) / 2) + 1 = x
        · have hx : x ≠ a.toNat := by omega
          simp [h1, hx]
        · by_cases h0 : s.cfg.displayBase + 2 * ((a.toNat - s.cfg.displayBase) / 2) = x
          · have hx : x = a.toNat := by omega
            simp [h0, hx]
          · have hx : x ≠ a.toNat := by omega
            simp [h1, h0, hx]
      · simp only [hp, ↓reduceIte, append_lo, append_hi, dispCell_lo]
        by_cases h1 : s.cfg.displayBase + 2 * ((a.toNat - s.cfg.displayBase) / 2) + 1 = x
        · have hx : x = a.toNat := by omega
          simp [h1, hx]
        · have hx : x ≠ a.toNat := by omega
          by_cases h0 : s.cfg.displayBase + 2 * ((a.toNat - s.cfg.displayBase) / 2) = x
          · simp [h0, hx]
          · simp [h1, h0, hx]
    · simp [hd]
  | rom => simp [State.writeByte, State.writable, h]
  | wram =>
    simp only [State.writeByte, State.writable, h, Memory.get_set, true_and]
    by_cases hx : x = a.toNat
    · simp [hx]
    · simp [hx, Ne.symm hx]
  | unmapped => simp [State.writeByte, State.writable, h]

/-- A byte read after a byte write: the byte written, at the address written, where a write is kept; elsewhere as before
(20_memory.md R78, R87). -/
theorem readByte_writeByte (a x : Word) (b : Byte) :
    (s.writeByte a b).readByte x = if s.writable x ∧ x = a then b else s.readByte x := by
  have hx : x.toNat = a.toNat ↔ x = a := BitVec.toNat_inj
  have hr : (s.writeByte a b).region x = s.region x := writeByte_region s a b x
  cases h : s.region x with
  | display =>
    rw [readByte_display _ _ (hr.trans h), readByte_display _ _ h, writeByte_get]
    simp only [hx, writeByte_displayAttached, State.writable, h]
    by_cases ha : x = a
    · subst ha; rw [h]; by_cases hd : s.displayAttached <;> simp [hd]
    · simp [ha]
  | wram =>
    rw [readByte_wram _ _ (hr.trans h), readByte_wram _ _ h, writeByte_get]
    simp only [hx, State.writable, h]
    by_cases ha : x = a
    · subst ha; rw [h]; simp
    · simp [ha]
  | rom =>
    rw [readByte_rom _ _ (hr.trans h), readByte_rom _ _ h]
    simp [State.writable, h]
  | unmapped =>
    rw [readByte_unmapped _ _ (hr.trans h), readByte_unmapped _ _ h]
    simp [State.writable, h]

/-- A byte read after a wide write: `x` is byte `(x - a) mod 2^32` of the access or is outside it. -/
theorem readByte_memWrite (a v : Word) (n : Nat) (hn : n < 2 ^ 32) (x : Word) :
    (s.memWrite a n v).readByte x =
      if s.writable x ∧ (x - a).toNat < n then v.extractLsb' (8 * (x - a).toNat) 8 else s.readByte x := by
  induction n with
  | zero => simp [State.memWrite]
  | succ n ih =>
    rw [State.memWrite, readByte_writeByte, ih (by omega), memWrite_writable]
    have key : x = a + BitVec.ofNat 32 n ↔ (x - a).toNat = n := by
      constructor
      · rintro rfl
        have : a + BitVec.ofNat 32 n - a = BitVec.ofNat 32 n := by
          rw [BitVec.add_comm, BitVec.add_sub_cancel]
        rw [this, BitVec.toNat_ofNat, Nat.mod_eq_of_lt (by omega)]
      · intro e
        have : BitVec.ofNat 32 n = x - a := by rw [← e, BitVec.ofNat_toNat, BitVec.setWidth_eq]
        rw [this, BitVec.add_comm, BitVec.sub_add_cancel]
    simp only [key]
    clear key ih
    generalize (x - a).toNat = d
    by_cases hw : s.writable x
    · by_cases he : d = n
      · simp [hw, he]
      · by_cases hl : d < n
        · have : d < n + 1 := by omega
          simp [hw, he, hl, this]
        · have : ¬ d < n + 1 := by omega
          simp [hw, he, hl, this]
    · simp [hw]

/-! ### Wide reads -/

/-- Bit `i` of a wide read is bit `i % 8` of the byte `i / 8` addresses up (20_memory.md R85). -/
theorem memRead_bit (a : Word) (n i : Nat) (hn : n ≤ 4) :
    (s.memRead a n).getLsbD i = (decide (i < 8 * n) && (s.readByte (a + BitVec.ofNat 32 (i / 8))).getLsbD (i % 8)) := by
  induction n with
  | zero => simp [State.memRead]
  | succ n ih =>
    rw [State.memRead, BitVec.getLsbD_or, ih (by omega), BitVec.getLsbD_shiftLeft, BitVec.getLsbD_setWidth]
    by_cases h : i < 8 * n
    · have h' : i < 8 * (n + 1) := by omega
      simp [h, h']
    · by_cases h' : i < 8 * (n + 1)
      · have e1 : i / 8 = n := by omega
        have e2 : i % 8 = i - 8 * n := by omega
        have e3 : i < 32 := by omega
        have e4 : i - 8 * n < 32 := by omega
        simp [h, h', e1, e2, e3, e4]
      · have : 8 ≤ i - 8 * n := by omega
        have e := BitVec.getLsbD_of_ge (s.readByte (a + BitVec.ofNat 32 n)) _ this
        simp [h, h', e]

/-- Two wide reads agree when their bytes do. -/
theorem memRead_congr (t : State) (a : Word) (n : Nat) (hn : n ≤ 4)
    (h : ∀ k < n, t.readByte (a + BitVec.ofNat 32 k) = s.readByte (a + BitVec.ofNat 32 k)) :
    t.memRead a n = s.memRead a n := by
  induction n with
  | zero => rfl
  | succ n ih => rw [State.memRead, State.memRead, ih (by omega) (fun k hk => h k (by omega)), h n (by omega)]

/-- Byte `k` of a wide read. -/
theorem memRead_byte (a : Word) (n k : Nat) (hn : n ≤ 4) (hk : k < n) :
    (s.memRead a n).extractLsb' (8 * k) 8 = s.readByte (a + BitVec.ofNat 32 k) := by
  apply BitVec.eq_of_getLsbD_eq
  intro i hi
  rw [BitVec.getLsbD_extractLsb', memRead_bit s a n _ hn]
  have e1 : (8 * k + i) / 8 = k := by omega
  have e2 : (8 * k + i) % 8 = i := by omega
  have e3 : 8 * k + i < 8 * n := by omega
  simp [hi, e1, e2, e3]

/-- The instruction word: the byte at the fetch address low, the next byte high (20_memory.md R93). -/
theorem fetchWord_eq : s.fetchWord = (s.readByte (s.fetchAddr + 1) ++ s.readByte s.fetchAddr : BitVec 16) := by
  apply BitVec.eq_of_getLsbD_eq
  intro i hi
  unfold State.fetchWord
  rw [BitVec.getLsbD_setWidth, memRead_bit _ _ _ _ (by decide), BitVec.getLsbD_append]
  by_cases h : i < 8
  · have e1 : i / 8 = 0 := by omega
    have e2 : i % 8 = i := by omega
    simp [h, e1, e2, hi]
  · have e1 : i / 8 = 1 := by omega
    have e2 : i % 8 = i - 8 := by omega
    simp [h, e1, e2, hi]

/-! ### Canonical form -/

theorem setDispCell_wf (c : Nat) (v : Half) (h : s.mem.wf) : (s.setDispCell c v).mem.wf :=
  Memory.wf_set _ _ _ (Memory.wf_set _ _ _ h)

/-- Every bus write keeps the canonical form. -/
theorem writeByte_wf (a : Word) (b : Byte) (h : s.mem.wf) : (s.writeByte a b).mem.wf := by
  unfold State.writeByte
  split
  · dsimp only
    split
    · exact setDispCell_wf _ _ _ h
    · exact h
  · exact h
  · exact Memory.wf_set _ _ _ h
  · exact h

theorem memWrite_wf (a : Word) (n : Nat) (v : Word) (h : s.mem.wf) : (s.memWrite a n v).mem.wf := by
  induction n with
  | zero => exact h
  | succ n ih => exact writeByte_wf _ _ _ ih

/-- A byte write adds entries only at addresses of a mutable store. -/
theorem writeByte_entries (a : Word) (b : Byte) (e : Host.Cell) (h : e ∈ (s.writeByte a b).mem) :
    e ∈ s.mem ∨ regionAt s.cfg e.1 = .display ∨ regionAt s.cfg e.1 = .wram := by
  cases hr : s.region a with
  | display =>
    simp only [State.writeByte, hr] at h
    split at h
    · rcases Memory.mem_set _ _ _ _ h with h1 | h
      · right; left
        rw [h1, Nat.add_assoc]
        exact region_display_cell _ _ _ hr (by omega)
      · rcases Memory.mem_set _ _ _ _ h with h1 | h
        · right; left
          rw [h1]
          exact region_display_cell _ _ _ hr (by omega)
        · exact .inl h
    · exact .inl h
  | rom => simp only [State.writeByte, hr] at h; exact .inl h
  | wram =>
    simp only [State.writeByte, hr] at h
    rcases Memory.mem_set _ _ _ _ h with h1 | h
    · right; right; rw [h1]; exact hr
    · exact .inl h
  | unmapped => simp only [State.writeByte, hr] at h; exact .inl h

theorem memWrite_entries (a : Word) (n : Nat) (v : Word) (e : Host.Cell) (h : e ∈ (s.memWrite a n v).mem) :
    e ∈ s.mem ∨ regionAt s.cfg e.1 = .display ∨ regionAt s.cfg e.1 = .wram := by
  induction n with
  | zero => exact .inl h
  | succ n ih =>
    rcases writeByte_entries _ _ _ _ h with h | h
    · exact ih h
    · right; simpa using h

/-- A byte read is decided by the memory, the image, the attachments and the parameters: no register and no flag. -/
theorem readByte_congr (t : State) (hm : t.mem = s.mem) (hi : t.img = s.img) (hd : t.displayAttached = s.displayAttached)
    (hr : t.romAttached = s.romAttached) (hc : t.cfg = s.cfg) (a : Word) : t.readByte a = s.readByte a := by
  simp only [State.readByte, State.region, State.dispCell, hm, hi, hd, hr, hc]

/-! ### The bus neither reads nor writes the registers and SW -/

theorem readByte_withRegsSw (regs : Vector Word 16) (sw : Word) (a : Word) :
    { s with regs := regs, sw := sw }.readByte a = s.readByte a := rfl

theorem memRead_withRegsSw (regs : Vector Word 16) (sw : Word) (a : Word) (n : Nat) :
    { s with regs := regs, sw := sw }.memRead a n = s.memRead a n := by
  induction n with
  | zero => rfl
  | succ n ih => rw [State.memRead, State.memRead, ih]; rfl

theorem writeByte_withRegsSw (regs : Vector Word 16) (sw : Word) (a : Word) (b : Byte) :
    { s with regs := regs, sw := sw }.writeByte a b = { s.writeByte a b with regs := regs, sw := sw } := by
  have hr : { s with regs := regs, sw := sw }.region a = s.region a := rfl
  unfold State.writeByte
  rw [hr]
  cases s.region a with
  | display =>
    dsimp only
    split <;> rfl
  | _ => rfl

theorem memWrite_withRegsSw (regs : Vector Word 16) (sw : Word) (a : Word) (n : Nat) (v : Word) :
    { s with regs := regs, sw := sw }.memWrite a n v = { s.memWrite a n v with regs := regs, sw := sw } := by
  induction n with
  | zero => rfl
  | succ n ih => rw [State.memWrite, State.memWrite, ih, writeByte_withRegsSw]

/-! ### Writes that are not kept -/

theorem writeByte_of_not_writable (a : Word) (b : Byte) (h : s.writable a = false) : s.writeByte a b = s := by
  unfold State.writable at h
  unfold State.writeByte
  cases hr : s.region a <;> simp_all

theorem memWrite_of_not_writable (a v : Word) (n : Nat)
    (h : ∀ k < n, s.writable (a + BitVec.ofNat 32 k) = false) : s.memWrite a n v = s := by
  induction n with
  | zero => rfl
  | succ n ih =>
    rw [State.memWrite, ih fun k hk => h k (by omega), writeByte_of_not_writable _ _ _ (h n (by omega))]

end Sys2Proof.Machine
end

