-- ==== Sys2Proof/Laws/Encoding.lean ====
section
/-! SUPPORT. The decoder's fields, and that what it gives is well formed. -/

namespace Sys2Proof

theorem natField_lt (w : Half) (lo len : Nat) : natField w lo len < 2 ^ len := BitVec.isLt _

theorem intField_range (w : Half) (lo len : Nat) :
    -(2 : Int) ^ len ≤ 2 * intField w lo (len) ∧ 2 * intField w lo len < 2 ^ len := by
  unfold intField
  have h1 := BitVec.le_two_mul_toInt (x := w.extractLsb' lo len)
  have h2 := BitVec.two_mul_toInt_lt (x := w.extractLsb' lo len)
  exact ⟨h1, h2⟩

theorem decodeAlu_wellFormed (op : Nat) (rd rs : LoReg) : (decodeAlu op rd rs).wellFormed = true := by
  unfold decodeAlu
  split <;> rfl

theorem decodeCond_wellFormed (cond : Nat) (off : Int) (comment : Nat) (ho : branchOffOk 7 off = true)
    (hc : comment < 256) : (decodeCond cond off comment).wellFormed = true := by
  unfold decodeCond
  split <;> first | exact ho | simpa [Instr.wellFormed, uImmOk, Nat.mod_one] using hc

/-- What the decoder gives is well formed: its immediates lie in the ranges of 30_encoding.md R122. -/
theorem decodeWord_wellFormed (w : Half) : (decodeWord w).wellFormed = true := by
  have n5 := natField_lt w 6 5
  have n8 := natField_lt w 0 8
  have i8 := intField_range w 0 8
  have i11 := intField_range w 0 11
  unfold decodeWord
  split
  case h_9 =>
    split
    · rfl
    · exact decodeAlu_wellFormed _ _ _
  case h_27 =>
    refine decodeCond_wellFormed _ _ _ ?_ n8
    simp only [branchOffOk, Bool.and_eq_true, beq_iff_eq, decide_eq_true_eq]
    omega
  case h_28 =>
    refine decodeCond_wellFormed _ _ _ ?_ n8
    simp only [branchOffOk, Bool.and_eq_true, beq_iff_eq, decide_eq_true_eq]
    omega
  case h_29 =>
    simp only [Instr.wellFormed, branchOffOk, Bool.and_eq_true, beq_iff_eq, decide_eq_true_eq]
    omega
  all_goals first
    | rfl
    | (simp only [Instr.wellFormed, uImmOk, Bool.and_eq_true, beq_iff_eq, decide_eq_true_eq]; omega)

end Sys2Proof
end

