-- ==== Sys2Proof/Laws/Flags.lean ====
section
/-! SUPPORT. What each flag policy leaves, and the shift primitive case by case. -/

namespace Sys2Proof.Machine

variable (s : State)

/-! ### The policies (10_state.md R39 to R42): the flags they leave and the fields they do not touch -/

@[simp] theorem nzcv_setLogical (r : Word) (co : Bool) : (s.setLogical r co).nzcv = ⟨r.msb, r == 0#32, co, s.flagV⟩ := by
  simp [setLogical_eq]
@[simp] theorem nzcv_setAdd (a b : Word) (cin : Bool) : (s.setAdd a b cin).nzcv = addFlags a b cin := by simp [setAdd_eq]
@[simp] theorem nzcv_setSub (a b : Word) (cin : Bool) : (s.setSub a b cin).nzcv = subFlags a b cin := by simp [setSub_eq]
@[simp] theorem nzcv_setMul (r : Word) : (s.setMul r).nzcv = ⟨r.msb, r == 0#32, false, false⟩ := by simp [setMul_eq]

@[simp] theorem reg_setLogical (r : Word) (co : Bool) (i : RegIdx) : (s.setLogical r co).reg i = s.reg i := rfl
@[simp] theorem reg_setAdd (a b : Word) (cin : Bool) (i : RegIdx) : (s.setAdd a b cin).reg i = s.reg i := rfl
@[simp] theorem reg_setSub (a b : Word) (cin : Bool) (i : RegIdx) : (s.setSub a b cin).reg i = s.reg i := rfl
@[simp] theorem reg_setMul (r : Word) (i : RegIdx) : (s.setMul r).reg i = s.reg i := rfl
@[simp] theorem lo_setLogical (r : Word) (co : Bool) (i : LoReg) : (s.setLogical r co).lo i = s.lo i := rfl
@[simp] theorem lo_setAdd (a b : Word) (cin : Bool) (i : LoReg) : (s.setAdd a b cin).lo i = s.lo i := rfl
@[simp] theorem lo_setSub (a b : Word) (cin : Bool) (i : LoReg) : (s.setSub a b cin).lo i = s.lo i := rfl
@[simp] theorem lo_setMul (r : Word) (i : LoReg) : (s.setMul r).lo i = s.lo i := rfl
@[simp] theorem mem_setLogical (r : Word) (co : Bool) : (s.setLogical r co).mem = s.mem := rfl
@[simp] theorem mem_setAdd (a b : Word) (cin : Bool) : (s.setAdd a b cin).mem = s.mem := rfl
@[simp] theorem mem_setSub (a b : Word) (cin : Bool) : (s.setSub a b cin).mem = s.mem := rfl
@[simp] theorem mem_setMul (r : Word) : (s.setMul r).mem = s.mem := rfl

/-- Two states have the same flags exactly when each flag agrees. -/
theorem nzcv_ext_iff (t : State) (f : NZCV) :
    t.nzcv = f ↔ t.flagN = f.n ∧ t.flagZ = f.z ∧ t.flagC = f.c ∧ t.flagV = f.v := by
  cases f
  simp [State.nzcv]

/-! ### The shift primitive (10_state.md R44) -/

theorem shiftLsl_small (v : Word) (amt : Nat) (cin : Bool) (h0 : amt ≠ 0) (h : amt ≤ 31) :
    shiftLsl v amt cin = (v <<< amt, v.getLsbD (32 - amt)) := by simp [shiftLsl, h0, h]

theorem shiftLsr_small (v : Word) (amt : Nat) (cin : Bool) (h0 : amt ≠ 0) (h : amt ≤ 31) :
    shiftLsr v amt cin = (v >>> amt, v.getLsbD (amt - 1)) := by simp [shiftLsr, h0, h]

/-- Below 32, the 64-bit form of the arithmetic shift is the 32-bit arithmetic shift. -/
theorem asr64_eq_sshiftRight (v : Word) (amt : Nat) (h : amt ≤ 31) :
    (v.signExtend 64 >>> amt).extractLsb' 0 32 = v.sshiftRight amt := by
  apply BitVec.eq_of_getLsbD_eq
  intro i hi
  rw [BitVec.getLsbD_extractLsb', BitVec.getLsbD_ushiftRight, BitVec.getLsbD_signExtend, BitVec.getLsbD_sshiftRight]
  have h64 : amt + (0 + i) < 64 := by omega
  have h32 : ¬ 32 ≤ i := by omega
  simp only [hi, h64, decide_true, Bool.true_and, h32, decide_false, Bool.not_false]
  simp

theorem shiftAsr_small (v : Word) (amt : Nat) (cin : Bool) (h0 : amt ≠ 0) (h : amt ≤ 31) :
    shiftAsr v amt cin = (v.sshiftRight amt, v.getLsbD (amt - 1)) := by
  simp [shiftAsr, h0, h, asr64_eq_sshiftRight]

/-- From 32 on, an arithmetic shift leaves the sign alone. -/
theorem sshiftRight_of_32_le (v : Word) (amt : Nat) (h : 32 ≤ amt) :
    v.sshiftRight amt = if v.msb then BitVec.allOnes 32 else 0 := by
  apply BitVec.eq_of_getLsbD_eq
  intro i hi
  rw [BitVec.getLsbD_sshiftRight]
  have h1 : ¬ amt + i < 32 := by omega
  have h2 : ¬ 32 ≤ i := by omega
  simp only [h1, h2, if_false, decide_false, Bool.not_false, Bool.true_and]
  cases v.msb
  · simp
  · rw [if_pos rfl, BitVec.getLsbD_allOnes]
    simp [hi]

theorem shiftAsr_big (v : Word) (amt : Nat) (cin : Bool) (h : 32 ≤ amt) :
    shiftAsr v amt cin = (v.sshiftRight amt, v.msb) := by
  rw [sshiftRight_of_32_le v amt h]
  simp only [shiftAsr, show ¬ amt = 0 by omega, show ¬ amt ≤ 31 by omega, if_false, BitVec.msb_eq_getLsbD_last]
  cases v.getLsbD 31 <;> rfl

/-- The core's rotate is the library's. -/
theorem ror_eq_rotateRight (v : Word) (amt : Nat) :
    (v >>> (amt % 32)) ||| (v <<< (32 - amt % 32)) = v.rotateRight amt := by
  simp [BitVec.rotateRight, BitVec.rotateRightAux]

theorem shiftRor_eq (v : Word) (amt : Nat) (cin : Bool) (h : amt % 32 ≠ 0) :
    shiftRor v amt cin = (v.rotateRight amt, v.getLsbD (amt % 32 - 1)) := by
  simp only [shiftRor, h, ↓reduceIte, ror_eq_rotateRight]

@[simp] theorem rightShiftAmount_eq (amt : Nat) : rightShiftAmount amt = amt := rfl

theorem regShiftAmount_lt (b : Word) : regShiftAmount b < 256 := Nat.mod_lt _ (by decide)

end Sys2Proof.Machine
end

