-- ==== Sys2Proof/Laws/Exec.lean ====
section
/-! SUPPORT. Everything one instruction, and one step, can do to the state, said once. -/

namespace Sys2Proof.Machine

/-- The effects an instruction can have: nothing; flags; a register; both; a store of at most four bytes; a jump, by an
even offset when the instruction is well formed. -/
inductive Effect (i : Instr) (s : State) : State → Prop where
  | nothing : Effect i s s
  | flags (f : NZCV) : Effect i s (s.setNZCV f)
  | reg (r : LoReg) (v : Word) : Effect i s (s.setLo r v)
  | regFlags (r : LoReg) (v : Word) (f : NZCV) : Effect i s ((s.setLo r v).setNZCV f)
  | store (a : Word) (n : Nat) (v : Word) (h : n ≤ 4) : Effect i s (s.memWrite a n v)
  | jump (off : Int) (h : i.wellFormed = true → off % 2 = 0) : Effect i s (s.setPc (s.branchTarget off))

variable {i : Instr} {s t : State}

theorem branchIf_effect {off : Int} (taken : Bool) (h : branchIf taken off s = .next t)
    (hoff : i.wellFormed = true → off % 2 = 0) : Effect i s t := by
  unfold branchIf at h
  cases taken
  · simp only [Bool.false_eq_true, ↓reduceIte] at h
    cases h
    exact .nothing
  · simp only [↓reduceIte] at h
    cases h
    exact .jump off hoff

theorem branchOffOk_even {n : Nat} {off : Int} (h : branchOffOk n off = true) : off % 2 = 0 := by
  simp only [branchOffOk, Bool.and_eq_true, beq_iff_eq] at h
  exact h.1.1

/-- One instruction: its next state is one of the effects. -/
theorem exec_effect (h : exec i s = .next t) : Effect i s t := by
  cases i
  case beq off => exact branchIf_effect _ h branchOffOk_even
  case bne off => exact branchIf_effect _ h branchOffOk_even
  case bcs off => exact branchIf_effect _ h branchOffOk_even
  case bcc off => exact branchIf_effect _ h branchOffOk_even
  case bmi off => exact branchIf_effect _ h branchOffOk_even
  case bpl off => exact branchIf_effect _ h branchOffOk_even
  case bvs off => exact branchIf_effect _ h branchOffOk_even
  case bvc off => exact branchIf_effect _ h branchOffOk_even
  case bhi off => exact branchIf_effect _ h branchOffOk_even
  case bls off => exact branchIf_effect _ h branchOffOk_even
  case bge off => exact branchIf_effect _ h branchOffOk_even
  case blt off => exact branchIf_effect _ h branchOffOk_even
  case bgt off => exact branchIf_effect _ h branchOffOk_even
  case ble off => exact branchIf_effect _ h branchOffOk_even
  case bCondE off => exact branchIf_effect _ h branchOffOk_even
  case b off => exact branchIf_effect _ h branchOffOk_even
  case str => cases h; exact .store _ _ _ (by decide)
  case strb => cases h; exact .store _ _ _ (by decide)
  case strh => cases h; exact .store _ _ _ (by decide)
  case ldrLit => cases h; exact .reg _ _
  case ldr => cases h; exact .reg _ _
  case ldrb => cases h; exact .reg _ _
  case ldrh => cases h; exact .reg _ _
  case adr => cases h; exact .reg _ _
  case cmpImm => cases h; exact .flags _
  case tst => cases h; exact .flags _
  case cmpReg => cases h; exact .flags _
  case cmn => cases h; exact .flags _
  all_goals cases h; first | exact .nothing | exact .regFlags _ _ _

/-- No effect touches x[8] to x[14]. -/
theorem Effect.reg_high (h : Effect i s t) (r : RegIdx) (h8 : 8 ≤ r.val) (h15 : r ≠ 15) : t.reg r = s.reg r := by
  cases h with
  | nothing => rfl
  | flags f => rfl
  | reg r' v => simp [loIdx_ne_of_le r' r h8]
  | regFlags r' v f => simp [loIdx_ne_of_le r' r h8]
  | store a n v _ => simp
  | jump off _ => simp [Ne.symm h15]

/-- No effect touches a bit of SW below the flags. -/
theorem Effect.sw_rest (h : Effect i s t) : t.sw.extractLsb' 0 28 = s.sw.extractLsb' 0 28 := by
  cases h <;> simp

/-- No effect touches the image, the attachments or the parameters. -/
theorem Effect.fixed (h : Effect i s t) :
    t.img = s.img ∧ t.displayAttached = s.displayAttached ∧ t.romAttached = s.romAttached ∧ t.cfg = s.cfg := by
  cases h <;> simp

/-- Every effect keeps the memory's canonical form. -/
theorem Effect.mem_wf (h : Effect i s t) (hm : s.mem.wf) : t.mem.wf := by
  cases h with
  | store a n v _ => exact memWrite_wf _ _ _ _ hm
  | _ => exact hm

/-- Every effect keeps the entries inside the mutable stores. -/
theorem Effect.stores (h : Effect i s t) (hm : s.MemInStores) : t.MemInStores := by
  cases h with
  | store a n v _ =>
    intro e he
    simp only [memWrite_cfg]
    rcases memWrite_entries _ _ _ _ _ he with h | h
    · exact hm e h
    · exact h
  | _ => exact hm

/-- A step runs one instruction, a well-formed one, on the advanced state. -/
theorem step_effect (h : step s = .next t) : Effect (decodeWord s.fetchWord) s.advance t := exec_effect h

end Sys2Proof.Machine
end

