-- ==== Sys2Proof/Laws/Fields.lean ====
section
/-! SUPPORT. The fields of an encoded word, format by format: what the decoder's extractions read back. -/

namespace Sys2Proof

theorem encShi_top (op : BitVec 2) (rd rs : LoReg) (amt : Nat) :
    (encShi op rd rs amt).extractLsb' 11 5 = (0b000#3 ++ op : BitVec 5) := by
  apply BitVec.eq_of_getLsbD_eq
  intro i hi
  simp only [encShi, BitVec.getLsbD_extractLsb', BitVec.getLsbD_append]
  interval_cases i <;> simp

theorem encShi_amt (op : BitVec 2) (rd rs : LoReg) (amt : Nat) :
    (encShi op rd rs amt).extractLsb' 6 5 = BitVec.ofNat 5 amt := by
  apply BitVec.eq_of_getLsbD_eq
  intro i hi
  simp only [encShi, BitVec.getLsbD_extractLsb', BitVec.getLsbD_append]
  interval_cases i <;> simp

theorem encShi_rs (op : BitVec 2) (rd rs : LoReg) (amt : Nat) :
    (encShi op rd rs amt).extractLsb' 3 3 = BitVec.ofFin rs := by
  apply BitVec.eq_of_getLsbD_eq
  intro i hi
  simp only [encShi, BitVec.getLsbD_extractLsb', BitVec.getLsbD_append]
  interval_cases i <;> simp

theorem encShi_rd (op : BitVec 2) (rd rs : LoReg) (amt : Nat) :
    (encShi op rd rs amt).extractLsb' 0 3 = BitVec.ofFin rd := by
  apply BitVec.eq_of_getLsbD_eq
  intro i hi
  simp only [encShi, BitVec.getLsbD_extractLsb', BitVec.getLsbD_append]
  interval_cases i <;> simp

theorem encImm_top (op : BitVec 2) (rd : LoReg) (imm : Nat) :
    (encImm op rd imm).extractLsb' 11 5 = (0b001#3 ++ op : BitVec 5) := by
  apply BitVec.eq_of_getLsbD_eq
  intro i hi
  simp only [encImm, BitVec.getLsbD_extractLsb', BitVec.getLsbD_append]
  interval_cases i <;> simp

theorem encImm_rd (op : BitVec 2) (rd : LoReg) (imm : Nat) :
    (encImm op rd imm).extractLsb' 8 3 = BitVec.ofFin rd := by
  apply BitVec.eq_of_getLsbD_eq
  intro i hi
  simp only [encImm, BitVec.getLsbD_extractLsb', BitVec.getLsbD_append]
  interval_cases i <;> simp

theorem encImm_imm (op : BitVec 2) (rd : LoReg) (imm : Nat) :
    (encImm op rd imm).extractLsb' 0 8 = BitVec.ofNat 8 imm := by
  apply BitVec.eq_of_getLsbD_eq
  intro i hi
  simp only [encImm, BitVec.getLsbD_extractLsb', BitVec.getLsbD_append]
  interval_cases i <;> simp

theorem encAlu_top (op : BitVec 4) (rd rs : LoReg) :
    (encAlu op rd rs).extractLsb' 11 5 = 0b01000 := by
  apply BitVec.eq_of_getLsbD_eq
  intro i hi
  simp only [encAlu, BitVec.getLsbD_extractLsb', BitVec.getLsbD_append]
  interval_cases i <;> simp

theorem encAlu_op (op : BitVec 4) (rd rs : LoReg) :
    (encAlu op rd rs).extractLsb' 6 4 = op := by
  apply BitVec.eq_of_getLsbD_eq
  intro i hi
  simp only [encAlu, BitVec.getLsbD_extractLsb', BitVec.getLsbD_append]
  interval_cases i <;> simp

theorem encAlu_rs (op : BitVec 4) (rd rs : LoReg) :
    (encAlu op rd rs).extractLsb' 3 3 = BitVec.ofFin rs := by
  apply BitVec.eq_of_getLsbD_eq
  intro i hi
  simp only [encAlu, BitVec.getLsbD_extractLsb', BitVec.getLsbD_append]
  interval_cases i <;> simp

theorem encAlu_rd (op : BitVec 4) (rd rs : LoReg) :
    (encAlu op rd rs).extractLsb' 0 3 = BitVec.ofFin rd := by
  apply BitVec.eq_of_getLsbD_eq
  intro i hi
  simp only [encAlu, BitVec.getLsbD_extractLsb', BitVec.getLsbD_append]
  interval_cases i <;> simp

theorem encAlu_bit10 (op : BitVec 4) (rd rs : LoReg) : (encAlu op rd rs).getLsbD 10 = false := by
  simp only [encAlu, BitVec.getLsbD_append]
  simp

theorem encPcRel_top (top : BitVec 5) (rd : LoReg) (off : Nat) :
    (encPcRel top rd off).extractLsb' 11 5 = top := by
  apply BitVec.eq_of_getLsbD_eq
  intro i hi
  simp only [encPcRel, BitVec.getLsbD_extractLsb', BitVec.getLsbD_append]
  interval_cases i <;> simp

theorem encPcRel_rd (top : BitVec 5) (rd : LoReg) (off : Nat) :
    (encPcRel top rd off).extractLsb' 8 3 = BitVec.ofFin rd := by
  apply BitVec.eq_of_getLsbD_eq
  intro i hi
  simp only [encPcRel, BitVec.getLsbD_extractLsb', BitVec.getLsbD_append]
  interval_cases i <;> simp

theorem encPcRel_imm (top : BitVec 5) (rd : LoReg) (off : Nat) :
    (encPcRel top rd off).extractLsb' 0 8 = BitVec.ofNat 8 (off / 4) := by
  apply BitVec.eq_of_getLsbD_eq
  intro i hi
  simp only [encPcRel, BitVec.getLsbD_extractLsb', BitVec.getLsbD_append]
  interval_cases i <;> simp

theorem encMem_top (top : BitVec 5) (rd rb : LoReg) (imm5 : Nat) :
    (encMem top rd rb imm5).extractLsb' 11 5 = top := by
  apply BitVec.eq_of_getLsbD_eq
  intro i hi
  simp only [encMem, BitVec.getLsbD_extractLsb', BitVec.getLsbD_append]
  interval_cases i <;> simp

theorem encMem_imm (top : BitVec 5) (rd rb : LoReg) (imm5 : Nat) :
    (encMem top rd rb imm5).extractLsb' 6 5 = BitVec.ofNat 5 imm5 := by
  apply BitVec.eq_of_getLsbD_eq
  intro i hi
  simp only [encMem, BitVec.getLsbD_extractLsb', BitVec.getLsbD_append]
  interval_cases i <;> simp

theorem encMem_rb (top : BitVec 5) (rd rb : LoReg) (imm5 : Nat) :
    (encMem top rd rb imm5).extractLsb' 3 3 = BitVec.ofFin rb := by
  apply BitVec.eq_of_getLsbD_eq
  intro i hi
  simp only [encMem, BitVec.getLsbD_extractLsb', BitVec.getLsbD_append]
  interval_cases i <;> simp

theorem encMem_rd (top : BitVec 5) (rd rb : LoReg) (imm5 : Nat) :
    (encMem top rd rb imm5).extractLsb' 0 3 = BitVec.ofFin rd := by
  apply BitVec.eq_of_getLsbD_eq
  intro i hi
  simp only [encMem, BitVec.getLsbD_extractLsb', BitVec.getLsbD_append]
  interval_cases i <;> simp

theorem condWord_top (cond : BitVec 4) (low : BitVec 8) :
    (0b1101#4 ++ cond ++ low : BitVec 16).extractLsb' 11 5 = (0b1101#4 ++ cond.extractLsb' 3 1 : BitVec 5) := by
  apply BitVec.eq_of_getLsbD_eq
  intro i hi
  simp only [BitVec.getLsbD_extractLsb', BitVec.getLsbD_append]
  interval_cases i <;> simp

theorem condWord_cond (cond : BitVec 4) (low : BitVec 8) :
    (0b1101#4 ++ cond ++ low : BitVec 16).extractLsb' 8 4 = cond := by
  apply BitVec.eq_of_getLsbD_eq
  intro i hi
  simp only [BitVec.getLsbD_extractLsb', BitVec.getLsbD_append]
  interval_cases i <;> simp

theorem condWord_low (cond : BitVec 4) (low : BitVec 8) :
    (0b1101#4 ++ cond ++ low : BitVec 16).extractLsb' 0 8 = low := by
  apply BitVec.eq_of_getLsbD_eq
  intro i hi
  simp only [BitVec.getLsbD_extractLsb', BitVec.getLsbD_append]
  interval_cases i <;> simp

theorem top5_top (top : BitVec 5) (rest : BitVec 11) :
    (top ++ rest : BitVec 16).extractLsb' 11 5 = top := by
  apply BitVec.eq_of_getLsbD_eq
  intro i hi
  simp only [BitVec.getLsbD_extractLsb', BitVec.getLsbD_append]
  interval_cases i <;> simp

theorem top5_rest (top : BitVec 5) (rest : BitVec 11) :
    (top ++ rest : BitVec 16).extractLsb' 0 11 = rest := by
  apply BitVec.eq_of_getLsbD_eq
  intro i hi
  simp only [BitVec.getLsbD_extractLsb', BitVec.getLsbD_append]
  interval_cases i <;> simp

theorem top4_top (top : BitVec 4) (rest : BitVec 12) :
    (top ++ rest : BitVec 16).extractLsb' 11 5 = (top ++ rest.extractLsb' 11 1 : BitVec 5) := by
  apply BitVec.eq_of_getLsbD_eq
  intro i hi
  simp only [BitVec.getLsbD_extractLsb', BitVec.getLsbD_append]
  interval_cases i <;> simp

theorem top4_rest (top : BitVec 4) (rest : BitVec 12) :
    (top ++ rest : BitVec 16).extractLsb' 0 12 = rest := by
  apply BitVec.eq_of_getLsbD_eq
  intro i hi
  simp only [BitVec.getLsbD_extractLsb', BitVec.getLsbD_append]
  interval_cases i <;> simp

theorem top6_top (rest : BitVec 10) :
    (0b010001#6 ++ rest : BitVec 16).extractLsb' 11 5 = 0b01000 := by
  apply BitVec.eq_of_getLsbD_eq
  intro i hi
  simp only [BitVec.getLsbD_extractLsb', BitVec.getLsbD_append]
  interval_cases i <;> simp

theorem top6_rest (rest : BitVec 10) :
    (0b010001#6 ++ rest : BitVec 16).extractLsb' 0 10 = rest := by
  apply BitVec.eq_of_getLsbD_eq
  intro i hi
  simp only [BitVec.getLsbD_extractLsb', BitVec.getLsbD_append]
  interval_cases i <;> simp

theorem top6_bit10 (rest : BitVec 10) : (0b010001#6 ++ rest : BitVec 16).getLsbD 10 = true := by
  simp only [BitVec.getLsbD_append]
  simp

/-- The 8-bit field of a branch offset in range gives the offset back. -/
theorem branchOff8 (off : Int) (h : branchOffOk 7 off = true) : (BitVec.ofInt 8 (off / 2)).toInt * 2 = off := by
  simp only [branchOffOk, Bool.and_eq_true, beq_iff_eq, decide_eq_true_eq] at h
  rw [BitVec.toInt_ofInt_eq_self (by decide) (by omega) (by omega)]
  omega

/-- The 11-bit field likewise. -/
theorem branchOff11 (off : Int) (h : branchOffOk 10 off = true) : (BitVec.ofInt 11 (off / 2)).toInt * 2 = off := by
  simp only [branchOffOk, Bool.and_eq_true, beq_iff_eq, decide_eq_true_eq] at h
  rw [BitVec.toInt_ofInt_eq_self (by decide) (by omega) (by omega)]
  omega

end Sys2Proof
end

