-- ==== Sys2Proof/Laws/PerInstr.lean ====
section
/-! SUPPORT. The families of LAWS.json: a statement about each instruction as syntax, one lemma per constructor. -/

namespace Sys2Proof.Laws.EncodesItsRow

/-- The word of an instruction has the fixed bits of its row of spec/opcode_table.json (30_encoding.md R112 to R121, R125). -/
def Statement (i : Instr) : Prop := encode i &&& i.tableMask = i.tableMatch

/-! ### The formats -/

theorem shi_row (op : BitVec 2) (rd rs : LoReg) (amt : Nat) :
    encShi op rd rs amt &&& 0xF800 = (0b000#3 ++ op ++ 0#11 : BitVec 16) := by
  apply BitVec.eq_of_getLsbD_eq
  intro i hi
  simp only [encShi, BitVec.getLsbD_and, BitVec.getLsbD_append]
  interval_cases i <;> simp

theorem imm_row (op : BitVec 2) (rd : LoReg) (imm : Nat) :
    encImm op rd imm &&& 0xF800 = (0b001#3 ++ op ++ 0#11 : BitVec 16) := by
  apply BitVec.eq_of_getLsbD_eq
  intro i hi
  simp only [encImm, BitVec.getLsbD_and, BitVec.getLsbD_append]
  interval_cases i <;> simp

theorem alu_row (op : BitVec 4) (rd rs : LoReg) :
    encAlu op rd rs &&& 0xFFC0 = (0b010000#6 ++ op ++ 0#6 : BitVec 16) := by
  apply BitVec.eq_of_getLsbD_eq
  intro i hi
  simp only [encAlu, BitVec.getLsbD_and, BitVec.getLsbD_append]
  interval_cases i <;> simp

theorem pcRel_row (top : BitVec 5) (rd : LoReg) (off : Nat) :
    encPcRel top rd off &&& 0xF800 = (top ++ 0#11 : BitVec 16) := by
  apply BitVec.eq_of_getLsbD_eq
  intro i hi
  simp only [encPcRel, BitVec.getLsbD_and, BitVec.getLsbD_append]
  interval_cases i <;> simp

theorem mem_row (top : BitVec 5) (rd rb : LoReg) (imm5 : Nat) :
    encMem top rd rb imm5 &&& 0xF800 = (top ++ 0#11 : BitVec 16) := by
  apply BitVec.eq_of_getLsbD_eq
  intro i hi
  simp only [encMem, BitVec.getLsbD_and, BitVec.getLsbD_append]
  interval_cases i <;> simp

theorem bcc_row (cond : BitVec 4) (off : Int) :
    encBcc cond off &&& 0xFF00 = (0b1101#4 ++ cond ++ 0#8 : BitVec 16) := by
  apply BitVec.eq_of_getLsbD_eq
  intro i hi
  simp only [encBcc, BitVec.getLsbD_and, BitVec.getLsbD_append]
  interval_cases i <;> simp

theorem swi_row (cond : BitVec 4) (x : BitVec 8) :
    (0b1101#4 ++ cond ++ x : BitVec 16) &&& 0xFF00 = (0b1101#4 ++ cond ++ 0#8 : BitVec 16) := by
  apply BitVec.eq_of_getLsbD_eq
  intro i hi
  simp only [BitVec.getLsbD_and, BitVec.getLsbD_append]
  interval_cases i <;> simp

theorem top4_row (top : BitVec 4) (x : BitVec 12) :
    (top ++ x : BitVec 16) &&& 0xF000 = (top ++ 0#12 : BitVec 16) := by
  apply BitVec.eq_of_getLsbD_eq
  intro i hi
  simp only [BitVec.getLsbD_and, BitVec.getLsbD_append]
  interval_cases i <;> simp

theorem top5_row (top : BitVec 5) (x : BitVec 11) :
    (top ++ x : BitVec 16) &&& 0xF800 = (top ++ 0#11 : BitVec 16) := by
  apply BitVec.eq_of_getLsbD_eq
  intro i hi
  simp only [BitVec.getLsbD_and, BitVec.getLsbD_append]
  interval_cases i <;> simp

theorem top6_row (top : BitVec 6) (x : BitVec 10) :
    (top ++ x : BitVec 16) &&& 0xFC00 = (top ++ 0#10 : BitVec 16) := by
  apply BitVec.eq_of_getLsbD_eq
  intro i hi
  simp only [BitVec.getLsbD_and, BitVec.getLsbD_append]
  interval_cases i <;> simp

/-! ### One lemma per instruction -/

theorem lslImm (rd rs : LoReg) (amt : Nat) : Statement (.lslImm rd rs amt) := (shi_row _ _ _ _).trans rfl
theorem lsrImm (rd rs : LoReg) (amt : Nat) : Statement (.lsrImm rd rs amt) := (shi_row _ _ _ _).trans rfl
theorem asrImm (rd rs : LoReg) (amt : Nat) : Statement (.asrImm rd rs amt) := (shi_row _ _ _ _).trans rfl
theorem unrecU1 (bits : BitVec 11) : Statement (.unrecU1 bits) := (top5_row _ _).trans rfl
theorem movImm (rd : LoReg) (imm : Nat) : Statement (.movImm rd imm) := (imm_row _ _ _).trans rfl
theorem cmpImm (rd : LoReg) (imm : Nat) : Statement (.cmpImm rd imm) := (imm_row _ _ _).trans rfl
theorem addImm (rd : LoReg) (imm : Nat) : Statement (.addImm rd imm) := (imm_row _ _ _).trans rfl
theorem subImm (rd : LoReg) (imm : Nat) : Statement (.subImm rd imm) := (imm_row _ _ _).trans rfl
theorem and (rd rs : LoReg) : Statement (.and rd rs) := (alu_row _ _ _).trans rfl
theorem eor (rd rs : LoReg) : Statement (.eor rd rs) := (alu_row _ _ _).trans rfl
theorem lslReg (rd rs : LoReg) : Statement (.lslReg rd rs) := (alu_row _ _ _).trans rfl
theorem lsrReg (rd rs : LoReg) : Statement (.lsrReg rd rs) := (alu_row _ _ _).trans rfl
theorem asrReg (rd rs : LoReg) : Statement (.asrReg rd rs) := (alu_row _ _ _).trans rfl
theorem adc (rd rs : LoReg) : Statement (.adc rd rs) := (alu_row _ _ _).trans rfl
theorem sbc (rd rs : LoReg) : Statement (.sbc rd rs) := (alu_row _ _ _).trans rfl
theorem rorReg (rd rs : LoReg) : Statement (.rorReg rd rs) := (alu_row _ _ _).trans rfl
theorem tst (rd rs : LoReg) : Statement (.tst rd rs) := (alu_row _ _ _).trans rfl
theorem neg (rd rs : LoReg) : Statement (.neg rd rs) := (alu_row _ _ _).trans rfl
theorem cmpReg (rd rs : LoReg) : Statement (.cmpReg rd rs) := (alu_row _ _ _).trans rfl
theorem cmn (rd rs : LoReg) : Statement (.cmn rd rs) := (alu_row _ _ _).trans rfl
theorem orr (rd rs : LoReg) : Statement (.orr rd rs) := (alu_row _ _ _).trans rfl
theorem mul (rd rs : LoReg) : Statement (.mul rd rs) := (alu_row _ _ _).trans rfl
theorem bic (rd rs : LoReg) : Statement (.bic rd rs) := (alu_row _ _ _).trans rfl
theorem mvn (rd rs : LoReg) : Statement (.mvn rd rs) := (alu_row _ _ _).trans rfl
theorem unrecU2 (bits : BitVec 10) : Statement (.unrecU2 bits) := (top6_row _ _).trans rfl
theorem ldrLit (rd : LoReg) (off : Nat) : Statement (.ldrLit rd off) := (pcRel_row _ _ _).trans rfl
theorem unrecU3 (bits : BitVec 12) : Statement (.unrecU3 bits) := (top4_row _ _).trans rfl
theorem str (rd rb : LoReg) (off : Nat) : Statement (.str rd rb off) := (mem_row _ _ _ _).trans rfl
theorem ldr (rd rb : LoReg) (off : Nat) : Statement (.ldr rd rb off) := (mem_row _ _ _ _).trans rfl
theorem strb (rd rb : LoReg) (off : Nat) : Statement (.strb rd rb off) := (mem_row _ _ _ _).trans rfl
theorem ldrb (rd rb : LoReg) (off : Nat) : Statement (.ldrb rd rb off) := (mem_row _ _ _ _).trans rfl
theorem strh (rd rb : LoReg) (off : Nat) : Statement (.strh rd rb off) := (mem_row _ _ _ _).trans rfl
theorem ldrh (rd rb : LoReg) (off : Nat) : Statement (.ldrh rd rb off) := (mem_row _ _ _ _).trans rfl
theorem unrecU4 (bits : BitVec 12) : Statement (.unrecU4 bits) := (top4_row _ _).trans rfl
theorem adr (rd : LoReg) (off : Nat) : Statement (.adr rd off) := (pcRel_row _ _ _).trans rfl
theorem unrecU5 (bits : BitVec 11) : Statement (.unrecU5 bits) := (top5_row _ _).trans rfl
theorem unrecU6 (bits : BitVec 12) : Statement (.unrecU6 bits) := (top4_row _ _).trans rfl
theorem unrecU7 (bits : BitVec 12) : Statement (.unrecU7 bits) := (top4_row _ _).trans rfl
theorem beq (off : Int) : Statement (.beq off) := (bcc_row _ _).trans rfl
theorem bne (off : Int) : Statement (.bne off) := (bcc_row _ _).trans rfl
theorem bcs (off : Int) : Statement (.bcs off) := (bcc_row _ _).trans rfl
theorem bcc (off : Int) : Statement (.bcc off) := (bcc_row _ _).trans rfl
theorem bmi (off : Int) : Statement (.bmi off) := (bcc_row _ _).trans rfl
theorem bpl (off : Int) : Statement (.bpl off) := (bcc_row _ _).trans rfl
theorem bvs (off : Int) : Statement (.bvs off) := (bcc_row _ _).trans rfl
theorem bvc (off : Int) : Statement (.bvc off) := (bcc_row _ _).trans rfl
theorem bhi (off : Int) : Statement (.bhi off) := (bcc_row _ _).trans rfl
theorem bls (off : Int) : Statement (.bls off) := (bcc_row _ _).trans rfl
theorem bge (off : Int) : Statement (.bge off) := (bcc_row _ _).trans rfl
theorem blt (off : Int) : Statement (.blt off) := (bcc_row _ _).trans rfl
theorem bgt (off : Int) : Statement (.bgt off) := (bcc_row _ _).trans rfl
theorem ble (off : Int) : Statement (.ble off) := (bcc_row _ _).trans rfl
theorem bCondE (off : Int) : Statement (.bCondE off) := (bcc_row _ _).trans rfl
theorem swi (comment : Nat) : Statement (.swi comment) := (swi_row _ _).trans rfl
theorem b (off : Int) : Statement (.b off) := (top5_row _ _).trans rfl
theorem unrecU8 (bits : BitVec 11) : Statement (.unrecU8 bits) := (top5_row _ _).trans rfl
theorem unrecU9 (bits : BitVec 12) : Statement (.unrecU9 bits) := (top4_row _ _).trans rfl

end Sys2Proof.Laws.EncodesItsRow
end

