-- ==== Sys2Proof/Laws/Place.lean ====
section
/-! SUPPORT. What placing a byte from outside does to the bytes the bus reads. -/

namespace Sys2Proof.Machine

/-- Masking an even address changes nothing. -/
theorem and_mask_of_even (a : Word) (h : a.getLsbD 0 = false) : a &&& 0xFFFFFFFE = a := by
  apply BitVec.eq_of_getLsbD_eq; intro i hi
  rw [BitVec.getLsbD_and]
  by_cases e : i = 0
  · subst e; rw [h]; rfl
  · have : ∀ i < 32, i ≠ 0 → (0xFFFFFFFE : Word).getLsbD i = true := by decide
    rw [this i hi e, Bool.and_true]

/-- Reading an image after a byte is placed in it; past the end it reads 0xFF before and after. -/
theorem imageWith_get (img : List Byte) (o j : Nat) (b : Byte) :
    (imageWith img o b)[j]?.getD 0xFF = if j = o then b else img[j]?.getD 0xFF := by
  unfold imageWith
  rw [List.getElem?_set]
  by_cases h : o = j
  · subst h
    rw [if_pos rfl, if_pos rfl, if_pos (by simp; omega)]; rfl
  · rw [if_neg h, if_neg (Ne.symm h), List.getElem?_append]
    split
    · rfl
    · next hl =>
      rw [List.getElem?_replicate, List.getElem?_eq_none (by omega : img.length ≤ j)]
      split <;> rfl

theorem placeByte_region (s : State) (a x : Word) (b : Byte) : (s.placeByte a b).region x = s.region x := by
  unfold State.placeByte; cases s.region a <;> rfl

/-- Reading after a byte is placed: the byte at its address, elsewhere what was there (in a store that is attached). -/
theorem readByte_placeByte (s : State) (a x : Word) (b : Byte) (hr : s.region a ≠ .unmapped)
    (h : x = a ∨ ((s.region x = .display → s.displayAttached = true) ∧ (s.region x = .rom → s.romAttached = true))) :
    (s.placeByte a b).readByte x = if x = a then b else s.readByte x := by
  have hreg := placeByte_region s a x b
  have hx : x.toNat = a.toNat ↔ x = a := BitVec.toNat_inj
  have hs : ∀ c c', regionAt s.cfg a.toNat = c → regionAt s.cfg x.toNat = c' → c ≠ c' → x ≠ a := by
    intro c c' h1 h2 h3 e; subst e; exact h3 (h1 ▸ h2 ▸ rfl)
  cases hc : s.region x with
  | unmapped =>
    have hne : x ≠ a := by intro e; subst e; exact hr hc
    rw [readByte_unmapped _ _ (hreg.trans hc), readByte_unmapped _ _ hc, if_neg hne]
  | display =>
    rw [readByte_display _ _ (hreg.trans hc), readByte_display _ _ hc]
    unfold State.placeByte
    cases ha : s.region a with
    | unmapped => exact absurd ha hr
    | display =>
      simp only [Memory.get_set, if_true]
      by_cases e : x = a
      · subst e; simp
      · have := (h.resolve_left e).1 hc
        simp [e, this, eq_comm]
        intro e2; exact absurd (hx.mp e2.symm) e
    | rom =>
      have hne := hs _ _ ha hc (by decide)
      simp [hne, (h.resolve_left hne).1 hc]
    | wram =>
      have hne := hs _ _ ha hc (by decide)
      simp [hne, (h.resolve_left hne).1 hc, Memory.get_set]
      intro e2; exact absurd (hx.mp e2.symm) hne
  | wram =>
    rw [readByte_wram _ _ (hreg.trans hc), readByte_wram _ _ hc]
    unfold State.placeByte
    cases ha : s.region a with
    | unmapped => exact absurd ha hr
    | rom =>
      have hne := hs _ _ ha hc (by decide)
      simp [hne]
    | display =>
      simp only [Memory.get_set]
      simp [← hx, eq_comm]
    | wram =>
      simp only [Memory.get_set]
      simp [← hx, eq_comm]
  | rom =>
    rw [readByte_rom _ _ (hreg.trans hc), readByte_rom _ _ hc]
    unfold State.placeByte
    cases ha : s.region a with
    | unmapped => exact absurd ha hr
    | display =>
      have hne := hs _ _ ha hc (by decide)
      simp [hne, (h.resolve_left hne).2 hc]
    | wram =>
      have hne := hs _ _ ha hc (by decide)
      simp [hne, (h.resolve_left hne).2 hc]
    | rom =>
      have b1 : s.cfg.romBase ≤ x.toNat := by
        have : regionAt s.cfg x.toNat = .rom := hc
        unfold regionAt at this
        split at this
        · cases this
        · split at this
          · next h => exact h.1
          · split at this <;> cases this
      have b2 : s.cfg.romBase ≤ a.toNat := by
        have : regionAt s.cfg a.toNat = .rom := ha
        unfold regionAt at this
        split at this
        · cases this
        · split at this
          · next h => exact h.1
          · split at this <;> cases this
      simp only [if_true, imageWith_get]
      by_cases e : x = a
      · subst e; simp
      · have : ¬ x.toNat - s.cfg.romBase = a.toNat - s.cfg.romBase := by
          intro e2; exact e (hx.mp (by omega))
        rw [if_neg this, if_neg e, if_pos ((h.resolve_left e).2 hc)]

/-- A store that a byte is placed in is attached afterwards. -/
theorem placeByte_attached (s : State) (a : Word) (b : Byte) : (s.region a = .display → (s.placeByte a b).displayAttached = true) ∧ (s.region a = .rom → (s.placeByte a b).romAttached = true) := by
  unfold State.placeByte
  cases s.region a <;> simp

theorem placeByte_fetchAddr (s : State) (a : Word) (b : Byte) : (s.placeByte a b).fetchAddr = s.fetchAddr := by
  unfold State.placeByte; cases s.region a <;> rfl

end Sys2Proof.Machine
end

