-- ==== Sys2Proof/Tests/Slice0.lean ====
section
/-! SUPPORT. The model's own tests: the well-formedness check refuses what it should, words written out from the formats
decode to their instructions, single steps give the values of spec/95_test_vectors.md (T..) and of the rules' examples,
and every statement with hypotheses has a state that meets them. -/

set_option maxRecDepth 8000

namespace Sys2Proof.Tests

open Sys2Proof.Machine

/-! ### Helpers -/

def flagsOf (b : BitVec 4) : NZCV := ⟨b.getLsbD 3, b.getLsbD 2, b.getLsbD 1, b.getLsbD 0⟩

/-- The reset state with the word `w` at the reset pc, operand registers `regs` and the flags `nzcv`. -/
def start (w : Nat) (regs : List (LoReg × Word)) (nzcv : BitVec 4) (mem : Memory := []) : State :=
  (regs.foldl (fun (s : State) p => s.setLo p.1 p.2) { State.reset with img := wordBytes (BitVec.ofNat 16 w), mem := mem }).setNZCV
    (flagsOf nzcv)

/-- After one step: x[rd], the flags as four bits and the pc. -/
def result (s : State) (rd : LoReg) : Option (Word × BitVec 4 × Word) :=
  match step s with
  | .next t => some (t.lo rd, t.sw.extractLsb' 28 4, t.pc)
  | .fault _ => none
  | .refused _ => none

/-- After one step: the mutable stores. -/
def memAfter (s : State) : Option Memory :=
  match step s with
  | .next t => some t.mem
  | .fault _ => none
  | .refused _ => none

/-! ### Well-formedness: each check refuses a term that fails it -/

theorem test_illFormed_shift_amounts :
    (Instr.lslImm 0 1 32).wellFormed = false ∧
    (Instr.lsrImm 0 1 32).wellFormed = false ∧
    (Instr.asrImm 0 1 32).wellFormed = false := by decide

theorem test_illFormed_8_bit_immediates :
    (Instr.movImm 0 256).wellFormed = false ∧
    (Instr.cmpImm 0 256).wellFormed = false ∧
    (Instr.addImm 0 256).wellFormed = false ∧
    (Instr.subImm 0 256).wellFormed = false ∧
    (Instr.swi 256).wellFormed = false := by decide

theorem test_illFormed_pc_relative_offsets :
    (Instr.ldrLit 0 6).wellFormed = false ∧
    (Instr.ldrLit 0 1024).wellFormed = false ∧
    (Instr.adr 0 2).wellFormed = false ∧
    (Instr.adr 0 1024).wellFormed = false := by decide

theorem test_illFormed_word_offsets :
    (Instr.str 0 1 2).wellFormed = false ∧
    (Instr.str 0 1 128).wellFormed = false ∧
    (Instr.ldr 0 1 2).wellFormed = false ∧
    (Instr.ldr 0 1 128).wellFormed = false := by decide

theorem test_illFormed_byte_offsets :
    (Instr.strb 0 1 32).wellFormed = false ∧
    (Instr.ldrb 0 1 32).wellFormed = false := by decide

theorem test_illFormed_halfword_offsets :
    (Instr.strh 0 1 1).wellFormed = false ∧
    (Instr.strh 0 1 64).wellFormed = false ∧
    (Instr.ldrh 0 1 1).wellFormed = false ∧
    (Instr.ldrh 0 1 64).wellFormed = false := by decide

theorem test_illFormed_conditional_branches :
    (Instr.beq 3).wellFormed = false ∧ (Instr.beq 256).wellFormed = false ∧ (Instr.beq (-258)).wellFormed = false ∧
    (Instr.bne 3).wellFormed = false ∧ (Instr.bne 256).wellFormed = false ∧ (Instr.bne (-258)).wellFormed = false ∧
    (Instr.bcs 3).wellFormed = false ∧ (Instr.bcs 256).wellFormed = false ∧ (Instr.bcs (-258)).wellFormed = false ∧
    (Instr.bcc 3).wellFormed = false ∧ (Instr.bcc 256).wellFormed = false ∧ (Instr.bcc (-258)).wellFormed = false ∧
    (Instr.bmi 3).wellFormed = false ∧ (Instr.bmi 256).wellFormed = false ∧ (Instr.bmi (-258)).wellFormed = false ∧
    (Instr.bpl 3).wellFormed = false ∧ (Instr.bpl 256).wellFormed = false ∧ (Instr.bpl (-258)).wellFormed = false ∧
    (Instr.bvs 3).wellFormed = false ∧ (Instr.bvs 256).wellFormed = false ∧ (Instr.bvs (-258)).wellFormed = false ∧
    (Instr.bvc 3).wellFormed = false ∧ (Instr.bvc 256).wellFormed = false ∧ (Instr.bvc (-258)).wellFormed = false ∧
    (Instr.bhi 3).wellFormed = false ∧ (Instr.bhi 256).wellFormed = false ∧ (Instr.bhi (-258)).wellFormed = false ∧
    (Instr.bls 3).wellFormed = false ∧ (Instr.bls 256).wellFormed = false ∧ (Instr.bls (-258)).wellFormed = false ∧
    (Instr.bge 3).wellFormed = false ∧ (Instr.bge 256).wellFormed = false ∧ (Instr.bge (-258)).wellFormed = false ∧
    (Instr.blt 3).wellFormed = false ∧ (Instr.blt 256).wellFormed = false ∧ (Instr.blt (-258)).wellFormed = false ∧
    (Instr.bgt 3).wellFormed = false ∧ (Instr.bgt 256).wellFormed = false ∧ (Instr.bgt (-258)).wellFormed = false ∧
    (Instr.ble 3).wellFormed = false ∧ (Instr.ble 256).wellFormed = false ∧ (Instr.ble (-258)).wellFormed = false ∧
    (Instr.bCondE 3).wellFormed = false ∧ (Instr.bCondE 256).wellFormed = false ∧ (Instr.bCondE (-258)).wellFormed = false := by decide

theorem test_illFormed_branch : (Instr.b 3).wellFormed = false ∧ (Instr.b 2048).wellFormed = false ∧
    (Instr.b (-2050)).wellFormed = false := by decide

/-- The greatest and least immediates of each shape are well formed (the hypothesis of `DecodeInvertsEncode`, of
`StepRunsTheDecodedInstruction` and of the last clause of `AddressFormation`). -/
theorem witness_DecodeInvertsEncode :
    (Instr.lslImm 7 7 31).wellFormed = true ∧ (Instr.movImm 7 255).wellFormed = true ∧ (Instr.mvn 7 7).wellFormed = true ∧
    (Instr.ldrLit 7 1020).wellFormed = true ∧ (Instr.str 7 7 124).wellFormed = true ∧
    (Instr.ldrb 7 7 31).wellFormed = true ∧ (Instr.strh 7 7 62).wellFormed = true ∧
    (Instr.beq 254).wellFormed = true ∧ (Instr.ble (-256)).wellFormed = true ∧ (Instr.swi 255).wellFormed = true ∧
    (Instr.b 2046).wellFormed = true ∧ (Instr.b (-2048)).wellFormed = true ∧
    (Instr.unrecU9 0xFFF).wellFormed = true := by decide

/-! ### Decoding: a word of every constructor, written out from its format (30_encoding.md R112 to R121) -/

theorem decode_shift_immediate :
    decodeTableWord 16 0b000_00_00001_010_011 = some (.lslImm 3 2 1) ∧
    decodeTableWord 16 0b000_01_11111_111_000 = some (.lsrImm 0 7 31) ∧
    decodeTableWord 16 0b000_10_00100_000_001 = some (.asrImm 1 0 4) ∧
    decodeTableWord 16 0b00011_11111111111 = some (.unrecU1 0x7FF) := by decide

theorem decode_immediate_alu :
    decodeTableWord 16 0b001_00_111_11111111 = some (.movImm 7 255) ∧
    decodeTableWord 16 0b001_01_000_00001010 = some (.cmpImm 0 10) ∧
    decodeTableWord 16 0b001_10_010_00000001 = some (.addImm 2 1) ∧
    decodeTableWord 16 0b001_11_001_00000001 = some (.subImm 1 1) := by decide

theorem decode_register_alu_low :
    decodeTableWord 16 0b010000_0000_110_001 = some (.and 1 6) ∧
    decodeTableWord 16 0b010000_0001_110_001 = some (.eor 1 6) ∧
    decodeTableWord 16 0b010000_0010_110_001 = some (.lslReg 1 6) ∧
    decodeTableWord 16 0b010000_0011_110_001 = some (.lsrReg 1 6) ∧
    decodeTableWord 16 0b010000_0100_110_001 = some (.asrReg 1 6) ∧
    decodeTableWord 16 0b010000_0101_110_001 = some (.adc 1 6) ∧
    decodeTableWord 16 0b010000_0110_110_001 = some (.sbc 1 6) ∧
    decodeTableWord 16 0b010000_0111_110_001 = some (.rorReg 1 6) := by decide

theorem decode_register_alu_high :
    decodeTableWord 16 0b010000_1000_110_001 = some (.tst 1 6) ∧
    decodeTableWord 16 0b010000_1001_110_001 = some (.neg 1 6) ∧
    decodeTableWord 16 0b010000_1010_110_001 = some (.cmpReg 1 6) ∧
    decodeTableWord 16 0b010000_1011_110_001 = some (.cmn 1 6) ∧
    decodeTableWord 16 0b010000_1100_110_001 = some (.orr 1 6) ∧
    decodeTableWord 16 0b010000_1101_110_001 = some (.mul 1 6) ∧
    decodeTableWord 16 0b010000_1110_110_001 = some (.bic 1 6) ∧
    decodeTableWord 16 0b010000_1111_110_001 = some (.mvn 1 6) ∧
    decodeTableWord 16 0b010001_1011000000 = some (.unrecU2 0b1011000000) := by decide

theorem decode_load_store :
    decodeTableWord 16 0b01001_111_00000001 = some (.ldrLit 7 4) ∧
    decodeTableWord 16 0b0101_111000111000 = some (.unrecU3 0xE38) ∧
    decodeTableWord 16 0b0110_0_00001_000_001 = some (.str 1 0 4) ∧
    decodeTableWord 16 0b0110_1_11111_001_000 = some (.ldr 0 1 124) ∧
    decodeTableWord 16 0b0111_0_00001_000_001 = some (.strb 1 0 1) ∧
    decodeTableWord 16 0b0111_1_11111_001_000 = some (.ldrb 0 1 31) ∧
    decodeTableWord 16 0b1000_0_00001_000_001 = some (.strh 1 0 2) ∧
    decodeTableWord 16 0b1000_1_11111_001_000 = some (.ldrh 0 1 62) ∧
    decodeTableWord 16 0b1001_000000000000 = some (.unrecU4 0) := by decide

theorem decode_address_formation :
    decodeTableWord 16 0b1010_0_111_11111111 = some (.adr 7 1020) ∧
    decodeTableWord 16 0b1010_1_00000000001 = some (.unrecU5 1) ∧
    decodeTableWord 16 0b1011_010100000000 = some (.unrecU6 0x500) ∧
    decodeTableWord 16 0b1100_000000000001 = some (.unrecU7 1) := by decide

theorem decode_branches_low :
    decodeTableWord 16 0b1101_0000_10000000 = some (.beq (-256)) ∧
    decodeTableWord 16 0b1101_0001_11111111 = some (.bne (-2)) ∧
    decodeTableWord 16 0b1101_0010_01111111 = some (.bcs 254) ∧
    decodeTableWord 16 0b1101_0011_00000000 = some (.bcc 0) ∧
    decodeTableWord 16 0b1101_0100_00000001 = some (.bmi 2) ∧
    decodeTableWord 16 0b1101_0101_11111101 = some (.bpl (-6)) ∧
    decodeTableWord 16 0b1101_0110_10000000 = some (.bvs (-256)) ∧
    decodeTableWord 16 0b1101_0111_11111111 = some (.bvc (-2)) := by decide

theorem decode_branches_high :
    decodeTableWord 16 0b1101_1000_01111111 = some (.bhi 254) ∧
    decodeTableWord 16 0b1101_1001_00000000 = some (.bls 0) ∧
    decodeTableWord 16 0b1101_1010_00000001 = some (.bge 2) ∧
    decodeTableWord 16 0b1101_1011_11111101 = some (.blt (-6)) ∧
    decodeTableWord 16 0b1101_1100_10000000 = some (.bgt (-256)) ∧
    decodeTableWord 16 0b1101_1101_11111111 = some (.ble (-2)) ∧
    decodeTableWord 16 0b1101_1110_01111111 = some (.bCondE 254) ∧
    decodeTableWord 16 0b1101_1111_00000101 = some (.swi 5) := by decide

theorem decode_unconditional :
    decodeTableWord 16 0b11100_01111111111 = some (.b 2046) ∧
    decodeTableWord 16 0b11100_10000000000 = some (.b (-2048)) ∧
    decodeTableWord 16 0b11101_00000000000 = some (.unrecU8 0) ∧
    decodeTableWord 16 0b1111_111111111111 = some (.unrecU9 0xFFF) := by decide

/-! ### One step of each instruction: expected values from spec/95_test_vectors.md and the examples of the rules -/

/-- T2.2: C is the old bit 1. -/
theorem test_lslImm_by_31 : result (start 0x07C8 [(1, 0x3)] 0b0000) 0 = some (0x80000000, 0b1010, 0x08000002) := by decide

/-- T2.4: C is kept. -/
theorem test_lslImm_by_0 : result (start 0x0008 [(1, 0x80000000)] 0b0010) 0 = some (0x80000000, 0b1010, 0x08000002) := by decide

/-- T2.5. -/
theorem test_lsrImm_by_1 : result (start 0x0848 [(1, 0x1)] 0b0000) 0 = some (0, 0b0110, 0x08000002) := by decide

/-- T2.7: no shift (D5), V kept. -/
theorem test_lsrImm_by_0 : result (start 0x0808 [(1, 0x80000000)] 0b0001) 0 = some (0x80000000, 0b1001, 0x08000002) := by decide

/-- T2.9: C is the old bit 30. -/
theorem test_asrImm_by_31 : result (start 0x17C8 [(1, 0x40000000)] 0b0010) 0 = some (0, 0b0110, 0x08000002) := by decide

/-- T2.13, the example of R142. -/
theorem test_asrImm_by_4 : result (start 0x1101 [(0, 0x80000000)] 0b0000) 1 = some (0xF8000000, 0b1000, 0x08000002) := by decide

/-- T3.1: Z set, C and V kept. -/
theorem test_movImm_zero : result (start 0x2000 [(0, 0x5)] 0b0011) 0 = some (0, 0b0111, 0x08000002) := by decide

/-- T3.2: N cleared. -/
theorem test_movImm_255 : result (start 0x27FF [] 0b1000) 7 = some (0xFF, 0b0000, 0x08000002) := by decide

/-- T1.8: no register changes. -/
theorem test_cmpImm_borrow : result (start 0x280A [(0, 0x5)] 0b0000) 0 = some (5, 0b1000, 0x08000002) := by decide

/-- T3.4. -/
theorem test_cmpImm_overflow : result (start 0x2801 [(0, 0x80000000)] 0b0000) 0 = some (0x80000000, 0b0011, 0x08000002) := by decide

/-- T3.6. -/
theorem test_addImm_carry : result (start 0x30FF [(0, 0xffffff01)] 0b0000) 0 = some (0, 0b0110, 0x08000002) := by decide

/-- T3.7. -/
theorem test_addImm_overflow : result (start 0x3001 [(0, 0x7fffffff)] 0b0000) 0 = some (0x80000000, 0b1001, 0x08000002) := by decide

/-- T3.9. -/
theorem test_subImm_borrow : result (start 0x3801 [(0, 0x0)] 0b0000) 0 = some (0xFFFFFFFF, 0b1000, 0x08000002) := by decide

/-- T3.10. -/
theorem test_subImm_overflow : result (start 0x3801 [(0, 0x80000000)] 0b0000) 0 = some (0x7FFFFFFF, 0b0011, 0x08000002) := by decide

/-- T4.1. -/
theorem test_and_keeps_c_v : result (start 0x4000 [(0, 0xffffffff)] 0b0011) 0 = some (0xFFFFFFFF, 0b1011, 0x08000002) := by decide

/-- T4.2. -/
theorem test_and : result (start 0x4008 [(0, 0xf0f0f0f0), (1, 0xff00ff0)] 0b0000) 0 = some (0x00F000F0, 0b0000, 0x08000002) := by decide

/-- The example of R162. -/
theorem test_eor : result (start 0x4048 [(0, 0xffffffff), (1, 0xffff)] 0b0000) 0 = some (0xFFFF0000, 0b1000, 0x08000002) := by decide

/-- T4.3. -/
theorem test_eor_self : result (start 0x4040 [(0, 0x12345678)] 0b1011) 0 = some (0, 0b0111, 0x08000002) := by decide

/-- T4.4: the amount is one byte (D7). -/
theorem test_lslReg_by_256 : result (start 0x4088 [(0, 0xffffffff), (1, 0x100)] 0b0010) 0 = some (0xFFFFFFFF, 0b1010, 0x08000002) := by decide

/-- T4.6. -/
theorem test_lslReg_by_32 : result (start 0x4088 [(0, 0x1), (1, 0x20)] 0b0000) 0 = some (0, 0b0110, 0x08000002) := by decide

/-- T4.9. -/
theorem test_lsrReg_by_32 : result (start 0x40C8 [(0, 0x80000000), (1, 0x20)] 0b0000) 0 = some (0, 0b0110, 0x08000002) := by decide

/-- T4.10. -/
theorem test_lsrReg_by_255 : result (start 0x40C8 [(0, 0xffffffff), (1, 0xff)] 0b0010) 0 = some (0, 0b0100, 0x08000002) := by decide

/-- T4.11: C is the sign. -/
theorem test_asrReg_by_32 : result (start 0x4108 [(0, 0x7fffffff), (1, 0x20)] 0b0010) 0 = some (0, 0b0100, 0x08000002) := by decide

/-- T4.12. -/
theorem test_asrReg_by_40 : result (start 0x4108 [(0, 0x80000000), (1, 0x28)] 0b0000) 0 = some (0xFFFFFFFF, 0b1010, 0x08000002) := by decide

/-- T4.14. -/
theorem test_adc_overflow : result (start 0x4148 [(0, 0x7fffffff), (1, 0x0)] 0b0010) 0 = some (0x80000000, 0b1001, 0x08000002) := by decide

/-- T4.15. -/
theorem test_adc_carry : result (start 0x4148 [(0, 0xffffffff), (1, 0xffffffff)] 0b0010) 0 = some (0xFFFFFFFF, 0b1010, 0x08000002) := by decide

/-- T4.18: the subtrahend is 2^32 (D11). -/
theorem test_sbc_wide_subtrahend : result (start 0x4188 [(0, 0x7), (1, 0xffffffff)] 0b0000) 0 = some (7, 0b0000, 0x08000002) := by decide

/-- T4.20. -/
theorem test_sbc_overflow : result (start 0x4188 [(0, 0x80000000), (1, 0x0)] 0b0000) 0 = some (0x7FFFFFFF, 0b0011, 0x08000002) := by decide

/-- T4.21. -/
theorem test_rorReg_by_32 : result (start 0x41C8 [(0, 0x12345678), (1, 0x20)] 0b0010) 0 = some (0x12345678, 0b0010, 0x08000002) := by decide

/-- T4.22. -/
theorem test_rorReg_by_36 : result (start 0x41C8 [(0, 0x12345678), (1, 0x24)] 0b0000) 0 = some (0x81234567, 0b1010, 0x08000002) := by decide

/-- T4.24. -/
theorem test_tst_keeps_c_v : result (start 0x4208 [(0, 0x80000000), (1, 0x80000000)] 0b0011) 0 = some (0x80000000, 0b1011, 0x08000002) := by decide

/-- T4.25. -/
theorem test_tst_zero : result (start 0x4208 [(0, 0xf), (1, 0xf0)] 0b0000) 0 = some (0xF, 0b0100, 0x08000002) := by decide

/-- T4.26 (D10). -/
theorem test_neg_zero : result (start 0x4248 [(1, 0x0)] 0b0000) 0 = some (0, 0b0110, 0x08000002) := by decide

/-- T4.27. -/
theorem test_neg_min : result (start 0x4248 [(1, 0x80000000)] 0b0000) 0 = some (0x80000000, 0b1001, 0x08000002) := by decide

/-- T4.30. -/
theorem test_cmpReg_overflow : result (start 0x4288 [(0, 0x7fffffff), (1, 0xffffffff)] 0b0000) 0 = some (0x7FFFFFFF, 0b1001, 0x08000002) := by decide

/-- T4.31. -/
theorem test_cmpReg_self : result (start 0x4280 [(0, 0x55)] 0b0000) 0 = some (0x55, 0b0110, 0x08000002) := by decide

/-- T4.34. -/
theorem test_cmn_overflow : result (start 0x42C8 [(0, 0x80000000), (1, 0x80000000)] 0b0000) 0 = some (0x80000000, 0b0111, 0x08000002) := by decide

/-- T4.35. -/
theorem test_cmn_carry : result (start 0x42C8 [(0, 0x1), (1, 0xffffffff)] 0b0000) 0 = some (1, 0b0110, 0x08000002) := by decide

/-- T4.37. -/
theorem test_orr : result (start 0x4308 [(0, 0x80000000), (1, 0x1)] 0b0000) 0 = some (0x80000001, 0b1000, 0x08000002) := by decide

/-- T4.38: C and V cleared. -/
theorem test_mul_truncates : result (start 0x4348 [(0, 0x10000), (1, 0x10000)] 0b0011) 0 = some (0, 0b0100, 0x08000002) := by decide

/-- T4.41. -/
theorem test_mul_same_register : result (start 0x4340 [(0, 0x10001)] 0b0000) 0 = some (0x20001, 0b0000, 0x08000002) := by decide

/-- T4.44. -/
theorem test_bic : result (start 0x4388 [(0, 0xffffffff), (1, 0xffff)] 0b0000) 0 = some (0xFFFF0000, 0b1000, 0x08000002) := by decide

/-- T4.43. -/
theorem test_bic_self : result (start 0x4380 [(0, 0x1234)] 0b0011) 0 = some (0, 0b0111, 0x08000002) := by decide

/-- T4.45: C kept. -/
theorem test_mvn : result (start 0x43C8 [(1, 0xffffffff)] 0b0010) 0 = some (0, 0b0110, 0x08000002) := by decide

/-- T5.1: the literal is at (pcn AND NOT 2) + 4. -/
theorem test_ldrLit :
    result { start 0 [] 0b0000 with img := [0x01, 0x48, 0x00, 0x48, 0x44, 0x33, 0x22, 0x11] } 0 =
      some (0x11223344, 0b0000, 0x08000002) := by decide

/-- T5.4. -/
theorem test_ldrLit_past_the_image : result (start 0x4801 [] 0b0000) 0 = some (0xFFFFFFFF, 0b0000, 0x08000002) := by decide

/-- T5.6. -/
theorem test_str : memAfter (start 0x6008 [(0, 0x11223344), (1, 0x3000010)] 0b0000 []) = some [(0x03000010, 0x44), (0x03000011, 0x33), (0x03000012, 0x22), (0x03000013, 0x11)] := by decide

/-- T5.8: bytes past working memory are discarded. -/
theorem test_str_off_the_end : memAfter (start 0x6008 [(0, 0xaabbccdd), (1, 0x3007ffe)] 0b0000 []) = some [(0x03007FFE, 0xDD), (0x03007FFF, 0xCC)] := by decide

/-- T5.11: no rotation (D13). -/
theorem test_ldr_misaligned : result (start 0x6808 [(1, 0x3000001)] 0b0000 [(0x03000001, 0x11), (0x03000002, 0x22), (0x03000003, 0x33), (0x03000004, 0x44)]) 0 = some (0x44332211, 0b0000, 0x08000002) := by decide

/-- T5.13. -/
theorem test_ldr_unmapped : result (start 0x6FC8 [(1, 0x10000000)] 0b0000) 0 = some (0, 0b0000, 0x08000002) := by decide

/-- T5.14. -/
theorem test_strb : memAfter (start 0x7008 [(0, 0x1ff), (1, 0x3000000)] 0b0000 []) = some [(0x03000000, 0xFF)] := by decide

/-- T5.17: the high half of the cell. -/
theorem test_strb_display : memAfter (start 0x7041 [(0, 0x6000000), (1, 0xab)] 0b0000 [(0x06000000, 0x34), (0x06000001, 0x12)]) = some [(0x06000000, 0x34), (0x06000001, 0xAB)] := by decide

/-- T5.15: zero-extended (D12). -/
theorem test_ldrb : result (start 0x7808 [(1, 0x3000000)] 0b0000 [(0x03000000, 0x80)]) 0 = some (0x80, 0b0000, 0x08000002) := by decide

/-- T5.16. -/
theorem test_ldrb_past_the_image : result (start 0x7FC8 [(1, 0x8000000)] 0b0000) 0 = some (0xFF, 0b0000, 0x08000002) := by decide

/-- T5.19. -/
theorem test_strh_misaligned : memAfter (start 0x8008 [(0, 0xffff1234), (1, 0x3000003)] 0b0000 []) = some [(0x03000003, 0x34), (0x03000004, 0x12)] := by decide

/-- T5.22. -/
theorem test_strh_across_cells : memAfter (start 0x8008 [(0, 0xbeef), (1, 0x6000001)] 0b0000 [(0x06000000, 0x11), (0x06000001, 0x11), (0x06000002, 0x22), (0x06000003, 0x22)]) = some [(0x06000000, 0x11), (0x06000001, 0xEF), (0x06000002, 0xBE), (0x06000003, 0x22)] := by decide

/-- T5.20: zero-extended. -/
theorem test_ldrh : result (start 0x8808 [(1, 0x3000000)] 0b0000 [(0x03000000, 0x01), (0x03000001, 0x80)]) 0 = some (0x8001, 0b0000, 0x08000002) := by decide

/-- T5.25: the display is not attached. -/
theorem test_ldrh_unattached_display :
    result { start 0x8808 [(1, 0x06000000)] 0b0000 [(0x06000000, 0x1F)] with displayAttached := false } 0 =
      some (0, 0b0000, 0x08000002) := by decide

/-- T6.1. -/
theorem test_adr_keeps_flags : result (start 0xA000 [] 0b1111) 0 = some (0x08000000, 0b1111, 0x08000002) := by decide

/-- T6.2: the instruction stands at B + 2. -/
theorem test_adr_far :
    result ({ start 0 [] 0b0000 with img := [0x00, 0x00, 0xFF, 0xA7] }.setPc 0x08000002) 7 =
      some (0x08000400, 0b0000, 0x08000004) := by decide

/-! ### Branches (T7.1 to T7.20 and the table of 10_state.md R50): taken to ia + 6, not taken to ia + 2 -/

theorem test_beq : result (start 0xD002 [] 0b0100) 0 = some (0, 0b0100, 0x08000006) ∧
    result (start 0xD002 [] 0b0000) 0 = some (0, 0b0000, 0x08000002) := by decide

theorem test_bne : result (start 0xD102 [] 0b0000) 0 = some (0, 0b0000, 0x08000006) ∧
    result (start 0xD102 [] 0b0100) 0 = some (0, 0b0100, 0x08000002) := by decide

theorem test_bcs : result (start 0xD202 [] 0b0010) 0 = some (0, 0b0010, 0x08000006) ∧
    result (start 0xD202 [] 0b0000) 0 = some (0, 0b0000, 0x08000002) := by decide

theorem test_bcc : result (start 0xD302 [] 0b0000) 0 = some (0, 0b0000, 0x08000006) ∧
    result (start 0xD302 [] 0b0010) 0 = some (0, 0b0010, 0x08000002) := by decide

theorem test_bmi : result (start 0xD402 [] 0b1000) 0 = some (0, 0b1000, 0x08000006) ∧
    result (start 0xD402 [] 0b0000) 0 = some (0, 0b0000, 0x08000002) := by decide

theorem test_bpl : result (start 0xD502 [] 0b0000) 0 = some (0, 0b0000, 0x08000006) ∧
    result (start 0xD502 [] 0b1000) 0 = some (0, 0b1000, 0x08000002) := by decide

theorem test_bvs : result (start 0xD602 [] 0b0001) 0 = some (0, 0b0001, 0x08000006) ∧
    result (start 0xD602 [] 0b0000) 0 = some (0, 0b0000, 0x08000002) := by decide

theorem test_bvc : result (start 0xD702 [] 0b0000) 0 = some (0, 0b0000, 0x08000006) ∧
    result (start 0xD702 [] 0b0001) 0 = some (0, 0b0001, 0x08000002) := by decide

theorem test_bhi : result (start 0xD802 [] 0b0010) 0 = some (0, 0b0010, 0x08000006) ∧
    result (start 0xD802 [] 0b0110) 0 = some (0, 0b0110, 0x08000002) := by decide

theorem test_bls : result (start 0xD902 [] 0b0110) 0 = some (0, 0b0110, 0x08000006) ∧
    result (start 0xD902 [] 0b0010) 0 = some (0, 0b0010, 0x08000002) := by decide

theorem test_bge : result (start 0xDA02 [] 0b1001) 0 = some (0, 0b1001, 0x08000006) ∧
    result (start 0xDA02 [] 0b1000) 0 = some (0, 0b1000, 0x08000002) := by decide

theorem test_blt : result (start 0xDB02 [] 0b1000) 0 = some (0, 0b1000, 0x08000006) ∧
    result (start 0xDB02 [] 0b1001) 0 = some (0, 0b1001, 0x08000002) := by decide

theorem test_bgt : result (start 0xDC02 [] 0b0000) 0 = some (0, 0b0000, 0x08000006) ∧
    result (start 0xDC02 [] 0b0100) 0 = some (0, 0b0100, 0x08000002) := by decide

theorem test_ble : result (start 0xDD02 [] 0b0100) 0 = some (0, 0b0100, 0x08000006) ∧
    result (start 0xDD02 [] 0b1001) 0 = some (0, 0b1001, 0x08000002) := by decide

/-- T7.24, T7.25: the parameter decides. -/
theorem test_bCondE : result (start 0xDE02 [] 0b0000) 0 = some (0, 0b0000, 0x08000002) ∧
    result { start 0xDE02 [] 0b0000 with cfg := { launchConfig with condETaken := true } } 0 =
      some (0, 0b0000, 0x08000006) := by decide

/-- T7.22 by its offset: the most negative conditional offset, -256 (from B instead of B + 0x200). -/
theorem test_beq_most_negative : result (start 0xD080 [] 0b0100) 0 = some (0, 0b0100, 0x07FFFF02) := by decide

/-- T7.26. -/
theorem test_swi : step (start 0xDF00 [] 0b1111) = .next (start 0xDF00 [] 0b1111).advance := by rfl

/-- T7.28 (at B): the self-branch. -/
theorem test_b_self : step (start 0xE7FF [] 0b0000) = .next (start 0xE7FF [] 0b0000) := by rfl

/-- T7.30: the greatest offset. -/
theorem test_b_greatest : result (start 0xE3FF [] 0b0000) 0 = some (0, 0b0000, 0x08000800) := by decide

/-! ### Unrecognized words (T8.1 to T8.12): only the pc moves -/

theorem test_unrecU1 : step (start 0x1888 [(0, 1), (1, 2), (2, 3)] 0b1010) =
    .next (start 0x1888 [(0, 1), (1, 2), (2, 3)] 0b1010).advance := by rfl

theorem test_unrecU2 : step (start 0x4770 [(0, 1), (1, 2), (2, 3)] 0b1010) =
    .next (start 0x4770 [(0, 1), (1, 2), (2, 3)] 0b1010).advance := by rfl

theorem test_unrecU3 : step (start 0x5000 [(0, 1), (1, 2), (2, 3)] 0b1010) =
    .next (start 0x5000 [(0, 1), (1, 2), (2, 3)] 0b1010).advance := by rfl

theorem test_unrecU4 : step (start 0x9000 [(0, 1), (1, 2), (2, 3)] 0b1010) =
    .next (start 0x9000 [(0, 1), (1, 2), (2, 3)] 0b1010).advance := by rfl

theorem test_unrecU5 : step (start 0xA800 [(0, 1), (1, 2), (2, 3)] 0b1010) =
    .next (start 0xA800 [(0, 1), (1, 2), (2, 3)] 0b1010).advance := by rfl

theorem test_unrecU6 : step (start 0xB500 [(0, 1), (1, 2), (2, 3)] 0b1010) =
    .next (start 0xB500 [(0, 1), (1, 2), (2, 3)] 0b1010).advance := by rfl

theorem test_unrecU7 : step (start 0xC000 [(0, 1), (1, 2), (2, 3)] 0b1010) =
    .next (start 0xC000 [(0, 1), (1, 2), (2, 3)] 0b1010).advance := by rfl

theorem test_unrecU8 : step (start 0xE800 [(0, 1), (1, 2), (2, 3)] 0b1010) =
    .next (start 0xE800 [(0, 1), (1, 2), (2, 3)] 0b1010).advance := by rfl

theorem test_unrecU9 : step (start 0xF800 [(0, 1), (1, 2), (2, 3)] 0b1010) =
    .next (start 0xF800 [(0, 1), (1, 2), (2, 3)] 0b1010).advance := by rfl

/-! ### The bus (T9) and reset (T10) -/

/-- T9.2: a word read that runs past the image. -/
theorem test_read_past_the_image :
    { start 0 [] 0b0000 with img := [0x01, 0x02, 0x03, 0x04] }.memRead 0x08000002 4 = 0xFFFF0403 := by decide

/-- T9.7. -/
theorem test_read_two_cells :
    (start 0 [] 0b0000 [(0x06000000, 0x11), (0x06000001, 0x11), (0x06000002, 0x22), (0x06000003, 0x22)]).memRead
      0x06000000 4 = 0x22221111 := by decide

/-- T9.9: a halfword on the last byte of working memory is not read back. -/
theorem test_write_at_the_last_byte :
    ((start 0 [] 0b0000).memWrite 0x03007FFF 2 0xBEEF).memRead 0x03007FFF 2 = 0x00EF := by decide

/-- T9.11. -/
theorem test_unattached_image_reads_zero :
    { start 0x2005 [] 0b0000 with romAttached := false }.memRead 0x08000000 2 = 0 := by decide

/-- T9.12. -/
theorem test_read_wraps : (start 0 [] 0b0000).memRead 0xFFFFFFFE 4 = 0 := by decide

/-- T10.3: a program of one instruction, from reset. -/
theorem test_reset_then_mov : result (start 0x2005 [(0, 9)] 0b1111).resetPort 0 = some (5, 0b0000, 0x08000002) := by decide

/-- Writing the value an unlisted byte reads as removes the entry; the form stays canonical. -/
theorem test_memory_canonical :
    Memory.set [(4, 1), (6, 2)] 5 3 = [(4, 1), (5, 3), (6, 2)] ∧ Memory.set [(4, 1), (6, 2)] 4 0 = [(6, 2)] ∧
    Memory.wf [(4, 1), (6, 2)] ∧ ¬ Memory.wf [(6, 2), (4, 1)] ∧ ¬ Memory.wf [(4, 0)] := by decide

/-- A lone byte is no instruction; a third byte is handed back. -/
theorem test_decodeBytes : decodeBytes [0x05] = .error .truncated ∧
    decodeBytes [0x05, 0x20, 0xAA] = .ok (.movImm 0 5, [0xAA]) := ⟨rfl, rfl⟩

/-- Ports: a failed load leaves the state, a load replaces the image, cells outside the surface do not exist. -/
theorem test_ports : (start 0x2005 [] 0).loadImage none = (false, start 0x2005 [] 0) ∧
    ((start 0x2005 [] 0).loadImage (some [1])).2.img = [1] ∧
    (start 0 [] 0 [(0x06000000, 0x34)]).readCell 0 = some 0x0034 ∧ (start 0 [] 0).readCell 38400 = none := by decide

/-- `withFetchWord` on the reset state: the next step runs the word. -/
theorem test_withFetchWord : result (State.reset.withFetchWord 16 0x2005) 0 = some (5, 0b0000, 0x08000002) := by decide

/-! ### Witnesses: a state and operands that meet the hypotheses of each statement that has any -/

theorem witness_StepRunsTheDecodedInstruction :
    (Instr.b (-2048)).wellFormed = true ∧
    (start 0xE400 [] 0b0000).readByte ((start 0xE400 [] 0b0000).pc &&& 0xFFFFFFFE) =
      (encode (.b (-2048))).extractLsb' 0 8 ∧
    (start 0xE400 [] 0b0000).readByte (((start 0xE400 [] 0b0000).pc &&& 0xFFFFFFFE) + 1) =
      (encode (.b (-2048))).extractLsb' 8 8 := by decide

/-- Both clauses: unmapped space, and the first halfword past an image of two bytes (T9.13, T9.14). -/
theorem witness_FetchOutsideTheImage :
    ((State.reset.setPc 0).region 0 = .unmapped ∧ (State.reset.setPc 0).region 1 = .unmapped ∧
      (State.reset.setPc 0).pc &&& 0xFFFFFFFE = 0) ∧
    (let s := (start 0x2005 [] 0b0000).setPc 0x08000002
     s.romAttached = true ∧ s.region (s.pc &&& 0xFFFFFFFE) = .rom ∧ s.region ((s.pc &&& 0xFFFFFFFE) + 1) = .rom ∧
     s.img.length ≤ (s.pc &&& 0xFFFFFFFE).toNat - s.cfg.romBase ∧
     s.img.length ≤ ((s.pc &&& 0xFFFFFFFE) + 1).toNat - s.cfg.romBase) := by decide

/-- The hypotheses of `HighRegistersAreIsolated` at both ends of the range. -/
theorem witness_HighRegistersAreIsolated :
    8 ≤ (8 : RegIdx).val ∧ (8 : RegIdx).val ≤ 14 ∧ 8 ≤ (14 : RegIdx).val ∧ (14 : RegIdx).val ≤ 14 ∧
    ∃ t, step (start 0x4148 [(0, 1)] 0b0010) = .next t := ⟨by decide, by decide, by decide, by decide, _, rfl⟩

/-- The hypothesis of `CompactStateBitHasNoEffect` and of `NoStepChangesWhatTheProgramCannot`. -/
theorem witness_step : ∃ t, step (start 0x6008 [(0, 1), (1, 0x03000000)] 0b0000) = .next t := ⟨_, rfl⟩

theorem witness_PcStaysEven : (start 0xE400 [] 0b0000).pc.getLsbD 0 = false ∧
    ∃ t, step (start 0xE400 [] 0b0000) = .next t := ⟨by decide, _, rfl⟩

/-- A state with a program, an entry in each mutable store and flags set meets the invariant, and it steps. -/
theorem witness_StepKeepsTheInvariant :
    (start 0x6008 [(0, 1), (1, 0x03000000)] 0b1010 [(0x03007FFF, 7), (0x06012BFF, 1)]).Inv ∧
    ∃ t, step (start 0x6008 [(0, 1), (1, 0x03000000)] 0b1010 [(0x03007FFF, 7), (0x06012BFF, 1)]) = .next t :=
  ⟨⟨by decide, by decide, by unfold State.MemInStores; decide, by decide, by decide, by decide⟩, _, rfl⟩

theorem witness_ResetEstablishesTheInvariant :
    (start 0 [] 0b0000 [(0x03007FFF, 7)]).cfg.wf ∧ (start 0 [] 0b0000 [(0x03007FFF, 7)]).mem.wf ∧
    (start 0 [] 0b0000 [(0x03007FFF, 7)]).MemInStores :=
  ⟨by decide, by decide, by unfold State.MemInStores; decide⟩

theorem witness_SelfBranchIsIdle : (start 0xE7FF [] 0b0000).pc.getLsbD 0 = false ∧
    (start 0xE7FF [] 0b0000).fetchWord = 0xE7FF := by decide

/-- `RegisterFrame`: an instruction that is no branch, and a register (x[14], the last) that is not its destination. -/
theorem witness_RegisterFrame :
    (∃ t, exec (.addImm 7 1) (start 0 [] 0b0000) = .next t) ∧ (14 : RegIdx) ≠ 15 ∧
    (∀ rd, destination (.addImm 7 1) = some rd → loIdx rd ≠ 14) ∧ isBranch (.addImm 7 1) = false :=
  ⟨⟨_, rfl⟩, by decide, by decide, rfl⟩

/-- `FlagFrame`: an instruction of each policy it names. -/
theorem witness_FlagFrame :
    (∃ t, exec (.ldr 0 1 0) (start 0 [] 0b1111) = .next t) ∧ flagPolicy (.ldr 0 1 0) = .none ∧
    (∃ t, exec (.and 0 1) (start 0 [] 0b1111) = .next t) ∧ flagPolicy (.and 0 1) = .logical ∧
    (∃ t, exec (.mul 0 1) (start 0 [] 0b1111) = .next t) ∧ flagPolicy (.mul 0 1) = .multiply :=
  ⟨⟨_, rfl⟩, rfl, ⟨_, rfl⟩, rfl, ⟨_, rfl⟩, rfl⟩

/-- `MemoryFrame`: an instruction that stores nothing, and the first address past the four bytes of a store. -/
theorem witness_MemoryFrame :
    (∃ t, exec (.tst 0 1) (start 0 [] 0b0000) = .next t) ∧ storeAt (start 0 [] 0b0000) (.tst 0 1) = none ∧
    (∃ t, exec (.str 0 1 124) (start 0 [] 0b0000) = .next t) ∧
    storeAt (start 0 [] 0b0000) (.str 0 1 124) = some (124, 4) ∧ 4 ≤ ((128 : Word) - 124).toNat :=
  ⟨⟨_, rfl⟩, rfl, ⟨_, rfl⟩, by decide, by decide⟩

/-- Every range of amounts of `ShiftPrimitiveEdgeCases` at its ends, with the values of T1.1. -/
theorem witness_ShiftPrimitiveEdgeCases :
    1 ≤ 1 ∧ 31 ≤ 31 ∧ 32 < 33 ∧
    shift .lsl 0x80000001 31 true = (0x80000000, false) ∧ shift .lsr 0x80000001 31 true = (1, false) ∧
    shift .asr 0x80000001 31 true = (0xFFFFFFFF, false) ∧ shift .ror 0x80000001 31 true = (3, false) ∧
    shift .lsl 0x80000001 32 true = (0, true) ∧ shift .lsr 0x80000001 32 true = (0, true) ∧
    shift .asr 0x80000001 33 true = (0xFFFFFFFF, true) ∧ shift .ror 0x80000001 33 true = (0xC0000000, true) := by decide

/-- The immediates of `ImmediateShifts` and of the four statements about G2, at their greatest. -/
theorem witness_immediates : 31 ≤ 31 ∧ 0 ≤ 31 ∧ 255 ≤ 255 := by decide

/-- Both clauses of `BranchesWhen`, for the statements about branches: each flag can hold and not hold. -/
theorem witness_branches :
    ((start 0 [] 0b1111).flagZ = true ∧ (start 0 [] 0b0000).flagZ = false) ∧
    ((start 0 [] 0b1111).flagC = true ∧ (start 0 [] 0b0000).flagC = false) ∧
    ((start 0 [] 0b1111).flagN = true ∧ (start 0 [] 0b0000).flagN = false) ∧
    ((start 0 [] 0b1111).flagV = true ∧ (start 0 [] 0b0000).flagV = false) ∧
    ((start 0 [] 0b1001).flagN = (start 0 [] 0b1001).flagV ∧ (start 0 [] 0b0001).flagN ≠ (start 0 [] 0b0001).flagV) ∧
    (State.reset.cfg.condETaken = false ∧
      { State.reset with cfg := { launchConfig with condETaken := true } }.cfg.condETaken = true) := by decide

theorem witness_CompareThenBranchIsTheOrder :
    ∃ t, exec (.cmpReg 0 1) (start 0 [(0, 0x80000000), (1, 1)] 0b0000) = .next t := ⟨_, rfl⟩

theorem witness_AddressFormation : (start 0 [] 0b0000).pc.getLsbD 0 = false ∧ (Instr.adr 7 1020).wellFormed = true := by
  decide

theorem witness_UnconditionalBranch : (start 0xE400 [] 0b0000).fetchWord = (0b11100#5 ++ (0x400 : BitVec 11) : BitVec 16) := by
  decide

theorem witness_SoftwareInterruptOnlyAdvances :
    (start 0xDF00 [] 0b0000).fetchWord &&& 0xFF00 = 0xDF00 ∧ (start 0xDFFF [] 0b0000).fetchWord &&& 0xFF00 = 0xDF00 := by
  decide

/-- Each of the nine classes, at the ends of its range. -/
theorem witness_UnrecognizedWordsOnlyAdvance :
    (start 0x1FFF [] 0).fetchWord &&& 0xF800 = 0x1800 ∧ (start 0x47FF [] 0).fetchWord &&& 0xFC00 = 0x4400 ∧
    (start 0x5FFF [] 0).fetchWord &&& 0xF000 = 0x5000 ∧ (start 0x9FFF [] 0).fetchWord &&& 0xF000 = 0x9000 ∧
    (start 0xAFFF [] 0).fetchWord &&& 0xF800 = 0xA800 ∧ (start 0xBFFF [] 0).fetchWord &&& 0xF000 = 0xB000 ∧
    (start 0xCFFF [] 0).fetchWord &&& 0xF000 = 0xC000 ∧ (start 0xEFFF [] 0).fetchWord &&& 0xF800 = 0xE800 ∧
    (start 0xFFFF [] 0).fetchWord &&& 0xF000 = 0xF000 := by decide

/-- `RegionsDoNotOverlap` and `PlacedWordIsFetched`: the launch configuration, and each region at its first and last byte. -/
theorem witness_RegionsDoNotOverlap : launchConfig.wf ∧
    regionAt launchConfig 0x06000000 = .display ∧ regionAt launchConfig 0x06012BFF = .display ∧
    regionAt launchConfig 0x06012C00 = .unmapped ∧ regionAt launchConfig 0x08000000 = .rom ∧
    regionAt launchConfig 0x09FFFFFF = .rom ∧ regionAt launchConfig 0x0A000000 = .unmapped ∧
    regionAt launchConfig 0x03000000 = .wram ∧ regionAt launchConfig 0x03007FFF = .wram ∧
    regionAt launchConfig 0x03008000 = .unmapped := by decide

/-- A word access of which the last two display bytes are detached and the next two unmapped. -/
theorem witness_UnmappedAndUnattachedDisplay :
    let s : State := { State.reset with displayAttached := false }
    4 ≤ 4 ∧ ∀ k < 4, s.region ((0x06012BFE : Word) + BitVec.ofNat 32 k) = .unmapped ∨
      (s.region ((0x06012BFE : Word) + BitVec.ofNat 32 k) = .display ∧ s.displayAttached = false) := by decide

/-- The last word of the window, for both clauses of `ImageReads`; the same addresses serve `ImageIsReadOnly`. -/
theorem witness_ImageReads :
    4 ≤ 4 ∧ (∀ k < 4, State.reset.region ((0x09FFFFFC : Word) + BitVec.ofNat 32 k) = .rom) ∧
    State.reset.romAttached = true ∧ { State.reset with romAttached := false }.romAttached = false := by decide

/-- The first word of the attached display and the last of working memory. -/
theorem witness_StoreThenLoadReadsBack :
    4 ≤ 4 ∧ (∀ k < 4, State.reset.writable ((0x06000000 : Word) + BitVec.ofNat 32 k) = true) ∧
    (∀ k < 4, State.reset.writable ((0x03007FFC : Word) + BitVec.ofNat 32 k) = true) := by decide

/-- The three clauses at the last cell, c = 38399 (its neighbour is 38398). -/
theorem witness_DisplayByteWritePatchesHalfACell :
    State.reset.region 0x06012BFF = .display ∧ State.reset.region 0x06012BFE = .display ∧
    State.reset.displayAttached = true ∧
    (0x06012BFF : Word).toNat = State.reset.cfg.displayBase + 2 * 38399 + 1 ∧
    (0x06012BFE : Word).toNat = State.reset.cfg.displayBase + 2 * 38399 ∧
    (0x06012BFF : Word).toNat ≠ State.reset.cfg.displayBase + 2 * 38398 ∧
    (0x06012BFF : Word).toNat ≠ State.reset.cfg.displayBase + 2 * 38398 + 1 := by decide

theorem witness_DisplayFastPath :
    State.reset.mem.wf ∧ State.reset.displayAttached = true ∧ 38399 < State.reset.cfg.displayCells ∧
    State.reset.cfg.displayBase + 2 * State.reset.cfg.displayCells ≤ 2 ^ 32 ∧
    (0x06012BFE : Word).toNat = State.reset.cfg.displayBase + 2 * 38399 := by decide

/-- T9.15 with a halfword store: STRH r1, [r0, #0] in working memory, over the halfword after it. -/
theorem witness_NextStepExecutesAStoredHalfword :
    let s := (start 0 [(0, 0x03000002), (1, 0x2007)] 0b0000 [(0x03000000, 0x01), (0x03000001, 0x80)]).setPc 0x03000000
    s.pc.getLsbD 0 = false ∧ decodeWord s.fetchWord = .strh 1 0 0 ∧ s.lo 0 + BitVec.ofNat 32 0 = s.pc + 2 ∧
    s.writable (s.pc + 2) = true ∧ s.writable (s.pc + 3) = true ∧ ∃ t, step s = .next t :=
  ⟨by decide, by decide, by decide, by decide, by decide, _, rfl⟩

theorem witness_FirstFetchAfterReset :
    (start 0x2005 [] 0b1111).cfg.wf ∧ (start 0x2005 [] 0b1111).romAttached = true ∧
    (start 0x2005 [] 0b1111).img = 0x05 :: 0x20 :: [] := by decide

end Sys2Proof.Tests
end

section
/-! PROOFS. Scope: a step is one fetch, decode, execute cycle, and it completes. -/

namespace Sys2Proof.Machine

/-- The cycle: the fetched word is decoded and executed on the advanced state (70_reset_and_hazards.md R276). -/
theorem step_eq_exec (s : State) : step s = exec (decodeWord s.fetchWord) s.advance := rfl

/-- Each of the 57 meanings is written as `.next` of a state: none of them has a faulting or refusing branch, and the
choice a conditional branch makes lies inside its next state. -/
theorem exec_completes (i : Instr) (s : State) : ∃ t, exec i s = .next t := by
  cases i <;> exact ⟨_, rfl⟩

/-- Settles O6: the step is one `exec`, of the decoded word on the advanced state, and every `exec` completes. -/
theorem everyStepCompletes : Obligations.EveryStepCompletes := by
  unfold Obligations.EveryStepCompletes
  intro s
  obtain ⟨t, ht⟩ := exec_completes (decodeWord s.fetchWord) s.advance
  exact ⟨t, (step_eq_exec s).trans ht, ht⟩

end Sys2Proof.Machine
end

section
/-! PROOFS. 10_state.md: registers, SW, the flag policies, the shift primitive, what every step keeps, and reset. -/

namespace Sys2Proof.Machine

/-! ### Changes no instruction can see -/

/-- A change `f` of the state is invisible when everything a meaning reads is the same after it, and it commutes with
everything a meaning writes. Nothing is asked of x[8] to x[14] or of the bits of SW that are no flag. -/
structure Invisible (f : State → State) : Prop where
  lo (s : State) (r : LoReg) : (f s).lo r = s.lo r
  pc (s : State) : (f s).pc = s.pc
  nzcv (s : State) : (f s).nzcv = s.nzcv
  memRead (s : State) (a : Word) (n : Nat) : (f s).memRead a n = s.memRead a n
  cfg (s : State) : (f s).cfg = s.cfg
  setLo (s : State) (r : LoReg) (v : Word) : (f s).setLo r v = f (s.setLo r v)
  setPc (s : State) (v : Word) : (f s).setPc v = f (s.setPc v)
  setNZCV (s : State) (g : NZCV) : (f s).setNZCV g = f (s.setNZCV g)
  memWrite (s : State) (a : Word) (n : Nat) (v : Word) : (f s).memWrite a n v = f (s.memWrite a n v)

section
variable {f : State → State} (hf : Invisible f) {i : Instr} {s t : State}
include hf

theorem Invisible.flagC (s : State) : (f s).flagC = s.flagC := congrArg NZCV.c (hf.nzcv s)
theorem Invisible.flagV (s : State) : (f s).flagV = s.flagV := congrArg NZCV.v (hf.nzcv s)

theorem Invisible.baseAddr (s : State) (rb : LoReg) (off : Nat) : (f s).baseAddr rb off = s.baseAddr rb off := by
  simp only [State.baseAddr, hf.lo]

theorem Invisible.pcRelAddr (s : State) (off : Nat) : (f s).pcRelAddr off = s.pcRelAddr off := by
  simp only [State.pcRelAddr, hf.pc]

theorem Invisible.setLogical (s : State) (r : Word) (co : Bool) : (f s).setLogical r co = f (s.setLogical r co) := by
  simp only [setLogical_eq, hf.flagV, hf.setNZCV]

theorem Invisible.setAdd (s : State) (a b : Word) (cin : Bool) : (f s).setAdd a b cin = f (s.setAdd a b cin) :=
  hf.setNZCV s _

theorem Invisible.setSub (s : State) (a b : Word) (cin : Bool) : (f s).setSub a b cin = f (s.setSub a b cin) :=
  hf.setNZCV s _

theorem Invisible.setMul (s : State) (r : Word) : (f s).setMul r = f (s.setMul r) := hf.setNZCV s _

theorem Invisible.branchIf {taken taken' : Bool} {off : Int} (ht : taken' = taken)
    (h : branchIf taken off s = .next t) : branchIf taken' off (f s) = .next (f t) := by
  cases h
  cases ht
  cases taken
  · rfl
  · simp [Machine.branchIf, State.branchTarget, hf.pc, hf.setPc]

theorem Invisible.shiftInto {kind : ShiftKind} {rd : LoReg} {v : Word} {amt : Nat}
    (h : shiftInto kind rd v amt s = .next t) : shiftInto kind rd v amt (f s) = .next (f t) := by
  cases h
  simp only [Machine.shiftInto, hf.flagC, hf.setLo, hf.setLogical]

theorem Invisible.logicalInto {rd : LoReg} {r : Word} (h : logicalInto rd r s = .next t) :
    logicalInto rd r (f s) = .next (f t) := by
  cases h
  simp only [Machine.logicalInto, hf.flagC, hf.setLo, hf.setLogical]

theorem Invisible.loadInto {rd : LoReg} {a : Word} {n : Nat} (h : loadInto rd a n s = .next t) :
    loadInto rd a n (f s) = .next (f t) := by
  cases h
  simp only [Machine.loadInto, hf.memRead, hf.setLo]

/-- An instruction run after an invisible change ends where it ends without it, with the change made there. -/
theorem Invisible.exec (h : exec i s = .next t) : exec i (f s) = .next (f t) := by
  cases i
  case beq | bne | bcs | bcc | bmi | bpl | bvs | bvc | bhi | bls | bge | blt | bgt | ble =>
    exact hf.branchIf (congrArg (condPassed _) (hf.nzcv s)) h
  case bCondE => exact hf.branchIf (congrArg Config.condETaken (hf.cfg s)) h
  case b => exact hf.branchIf rfl h
  case swi | unrecU1 | unrecU2 | unrecU3 | unrecU4 | unrecU5 | unrecU6 | unrecU7 | unrecU8 | unrecU9 => cases h; rfl
  case lslImm | lsrImm | asrImm | lslReg | lsrReg | asrReg | rorReg =>
    have hshift := hf.shiftInto h
    simpa only [Machine.exec, execLslImm, execLsrImm, execAsrImm, execLslReg, execLsrReg, execAsrReg, execRorReg,
      hf.lo] using hshift
  case and | eor | orr | bic | mvn =>
    have hlogical := hf.logicalInto h
    simpa only [Machine.exec, execAnd, execEor, execOrr, execBic, execMvn, hf.lo] using hlogical
  case ldrLit | ldr | ldrb | ldrh =>
    have hload := hf.loadInto h
    simpa only [Machine.exec, execLdrLit, execLdr, execLdrb, execLdrh, hf.baseAddr, hf.pcRelAddr] using hload
  case adr => cases h; simp only [Machine.exec, execAdr, hf.pcRelAddr, hf.setLo]
  case str | strb | strh =>
    cases h; simp only [Machine.exec, execStr, execStrb, execStrh, hf.lo, hf.baseAddr, hf.memWrite]
  case movImm | tst =>
    cases h; simp only [Machine.exec, execMovImm, execTst, hf.lo, hf.flagC, hf.setLo, hf.setLogical]
  case addImm | adc | neg | cmn =>
    cases h; simp only [Machine.exec, execAddImm, execAdc, execNeg, execCmn, hf.lo, hf.flagC, hf.setLo, hf.setAdd]
  case cmpImm | subImm | sbc | cmpReg =>
    cases h; simp only [Machine.exec, execCmpImm, execSubImm, execSbc, execCmpReg, hf.lo, hf.flagC, hf.setLo, hf.setSub]
  case mul => cases h; simp only [Machine.exec, execMul, hf.lo, hf.setLo, hf.setMul]

theorem Invisible.fetchWord (s : State) : (f s).fetchWord = s.fetchWord := by
  simp only [State.fetchWord, State.fetchAddr, hf.pc, hf.memRead]

theorem Invisible.advance (s : State) : (f s).advance = f s.advance := by
  simp only [State.advance, hf.pc, hf.setPc]

/-- A step fetches the same word after an invisible change, and ends with the change made in its result. -/
theorem Invisible.step (h : step s = .next t) : step (f s) = .next (f t) := by
  rw [step_eq_exec, hf.fetchWord, hf.advance]
  exact hf.exec h

end

/-! ### x[8] to x[14] (10_state.md R32) -/

theorem memWrite_setReg (s : State) (r : RegIdx) (v a : Word) (n : Nat) (w : Word) :
    (s.setReg r v).memWrite a n w = (s.memWrite a n w).setReg r v := by
  obtain ⟨m, hm⟩ := memWrite_eq s a n w
  calc (s.setReg r v).memWrite a n w
      = { s.memWrite a n w with regs := s.regs.set r v, sw := s.sw } := memWrite_withRegsSw s _ s.sw a n w
    _ = (s.memWrite a n w).setReg r v := by rw [hm]; rfl

/-- Only x[0] to x[7] and the pc are asked for: a write of x[8] to x[14] is invisible. -/
theorem setReg_high_invisible {r : RegIdx} (h8 : 8 ≤ r.val) (h15 : r ≠ 15) (v : Word) :
    Invisible fun s => s.setReg r v :=
  have hlo (r' : LoReg) : r ≠ loIdx r' := (loIdx_ne_of_le r' r h8).symm
  { lo := fun s r' => (reg_setReg s r (loIdx r') v).trans (if_neg (hlo r'))
    pc := fun s => (reg_setReg s r 15 v).trans (if_neg h15)
    nzcv := fun s => nzcv_setReg s r v
    memRead := fun s => memRead_withRegsSw s _ s.sw
    cfg := fun s => setReg_cfg s r v
    setLo := fun s r' w => setReg_comm s r (loIdx r') v w (hlo r')
    setPc := fun s w => setReg_comm s r 15 v w h15
    setNZCV := fun s g => setNZCV_setReg s g r v
    memWrite := fun s => memWrite_setReg s r v }

theorem step_reg_high {s t : State} (h : step s = .next t) {r : RegIdx} (h8 : 8 ≤ r.val) (h15 : r ≠ 15) :
    t.reg r = s.reg r :=
  calc t.reg r = s.advance.reg r := (step_effect h).reg_high r h8 h15
    _ = s.reg r := (reg_setPc s r _).trans (if_neg h15.symm)

theorem ne_pc_of_le_14 {r : RegIdx} (h14 : r.val ≤ 14) : r ≠ 15 := by
  rintro rfl
  exact absurd h14 (by decide)

/-- Settles O10: writing x[8] to x[14] is invisible to a step, and no effect of a step reaches them. -/
theorem highRegistersAreIsolated : Obligations.HighRegistersAreIsolated := by
  unfold Obligations.HighRegistersAreIsolated
  intro s t r v h8 h14 h
  have h15 := ne_pc_of_le_14 h14
  exact ⟨(setReg_high_invisible h8 h15 v).step h, step_reg_high h h8 h15⟩

/-! ### What no step changes (10_state.md R36, R52) -/

theorem step_sw_rest {s t : State} (h : step s = .next t) : t.sw.extractLsb' 0 28 = s.sw.extractLsb' 0 28 :=
  (step_effect h).sw_rest

theorem step_cfg {s t : State} (h : step s = .next t) : t.cfg = s.cfg := by
  obtain ⟨-, -, -, hcfg⟩ := (step_effect h).fixed
  exact hcfg

/-- Settles O12: no effect touches these fields, nor does the advance. -/
theorem noStepChangesWhatTheProgramCannot : Obligations.NoStepChangesWhatTheProgramCannot := by
  unfold Obligations.NoStepChangesWhatTheProgramCannot
  intro s t h
  exact ⟨step_sw_rest h, (step_effect h).fixed⟩

/-! ### The compact-encoding state bit T (10_state.md R37) -/

/-- The status word with T the other way round. -/
def State.flipT (s : State) : State := { s with sw := s.sw ^^^ 0x20 }

theorem flipT_sw_bit (s : State) (i : Nat) :
    s.flipT.sw.getLsbD i = if i = 5 then !s.flagT else s.sw.getLsbD i := by
  have hmask : (0x20 : Word) = BitVec.twoPow 32 5 := by decide
  rw [State.flipT, BitVec.getLsbD_xor, hmask, BitVec.getLsbD_twoPow]
  by_cases h : i = 5
  · subst h; simp [State.flagT]
  · simp [h, Ne.symm h]

theorem setNZCV_flipT (s : State) (g : NZCV) : s.flipT.setNZCV g = (s.setNZCV g).flipT := by
  have hsw : (s.flipT.setNZCV g).sw = (s.setNZCV g).flipT.sw := by
    apply BitVec.eq_of_getLsbD_eq
    intro i _
    rw [sw_setNZCV_bit, flipT_sw_bit, flipT_sw_bit, sw_setNZCV_bit, flagT_setNZCV]
    by_cases h : i = 5 <;> simp [h]
  calc s.flipT.setNZCV g = { s.setNZCV g with sw := (s.flipT.setNZCV g).sw } := rfl
    _ = (s.setNZCV g).flipT := by rw [hsw]; rfl

theorem memWrite_flipT (s : State) (a : Word) (n : Nat) (w : Word) :
    s.flipT.memWrite a n w = (s.memWrite a n w).flipT := by
  obtain ⟨m, hm⟩ := memWrite_eq s a n w
  calc s.flipT.memWrite a n w
      = { s.memWrite a n w with regs := s.regs, sw := s.sw ^^^ 0x20 } := memWrite_withRegsSw s s.regs _ a n w
    _ = (s.memWrite a n w).flipT := by rw [hm]; rfl

theorem flipT_nzcv (s : State) : s.flipT.nzcv = s.nzcv := by
  simp only [State.nzcv, State.flagN, State.flagZ, State.flagC, State.flagV, flipT_sw_bit, Nat.reduceEqDiff, if_false]

theorem flipT_invisible : Invisible State.flipT where
  lo _ _ := rfl
  pc _ := rfl
  nzcv := flipT_nzcv
  memRead s := memRead_withRegsSw s s.regs _
  cfg _ := rfl
  setLo _ _ _ := rfl
  setPc _ _ := rfl
  setNZCV := setNZCV_flipT
  memWrite := memWrite_flipT

theorem flagT_eq_of_sw_rest {s t : State} (h : t.sw.extractLsb' 0 28 = s.sw.extractLsb' 0 28) : t.flagT = s.flagT := by
  simpa [State.flagT] using congrArg (BitVec.getLsbD · 5) h

theorem resetPort_flagT (s : State) : s.resetPort.flagT = true := by
  have : resetSw.getLsbD 5 = true := by decide
  exact this

/-- Settles O11: flipping T is invisible to a step, T is one of the bits no step changes, and reset's SW has it set. -/
theorem compactStateBitHasNoEffect : Obligations.CompactStateBitHasNoEffect := by
  unfold Obligations.CompactStateBitHasNoEffect
  intro s t h
  exact ⟨flipT_invisible.step h, flagT_eq_of_sw_rest (step_sw_rest h), resetPort_flagT s⟩

/-! ### The pc stays even (10_state.md R34) -/

theorem bit_zero_eq_false_iff (x : Word) : x.getLsbD 0 = false ↔ x.toNat % 2 = 0 := by
  rw [BitVec.getLsbD, Nat.testBit_zero, decide_eq_false_iff_not]
  omega

theorem add_even {a b : Word} (ha : a.getLsbD 0 = false) (hb : b.getLsbD 0 = false) : (a + b).getLsbD 0 = false := by
  rw [bit_zero_eq_false_iff] at *
  rw [BitVec.toNat_add]
  omega

theorem ofInt_even {off : Int} (h : off % 2 = 0) : (BitVec.ofInt 32 off).getLsbD 0 = false := by
  rw [bit_zero_eq_false_iff, BitVec.toNat_ofInt]
  omega

theorem ofNat_even {n : Nat} (h : n % 2 = 0) : (BitVec.ofNat 32 n).getLsbD 0 = false := by
  rw [← BitVec.ofInt_natCast]
  exact ofInt_even (by omega)

/-- The even offset of a well-formed branch keeps an even pc even, and no other effect writes the pc. -/
theorem Effect.pc_even {i : Instr} {s t : State} (h : Effect i s t) (hi : i.wellFormed = true)
    (he : s.pc.getLsbD 0 = false) : t.pc.getLsbD 0 = false := by
  cases h with
  | jump off hoff =>
    rw [pc_setPc]
    exact add_even he (ofInt_even (hoff hi))
  | _ => simpa using he

/-- Settles O13: the decoded instruction is well formed, and the advance adds 2. -/
theorem pcStaysEven : Obligations.PcStaysEven := by
  unfold Obligations.PcStaysEven
  intro s t he h
  refine (step_effect h).pc_even (decodeWord_wellFormed _) ?_
  rw [advance_pc]
  exact add_even he rfl

/-! ### The invariant of reachable states -/

theorem step_high_reset {s t : State} (h : step s = .next t)
    (hs : ∀ r : RegIdx, 8 ≤ r.val → r.val ≤ 14 → s.reg r = (resetRegs s.cfg)[r]) (r : RegIdx) (h8 : 8 ≤ r.val)
    (h14 : r.val ≤ 14) : t.reg r = (resetRegs t.cfg)[r] := by
  rw [step_reg_high h h8 (ne_pc_of_le_14 h14), step_cfg h]
  exact hs r h8 h14

/-- Settles O14: each clause by what any effect, and so any step, keeps. -/
theorem stepKeepsTheInvariant : Obligations.StepKeepsTheInvariant := by
  unfold Obligations.StepKeepsTheInvariant
  intro s t hs h
  exact {
    cfg := step_cfg h ▸ hs.cfg
    mem := (step_effect h).mem_wf hs.mem
    stores := (step_effect h).stores hs.stores
    pcEven := pcStaysEven s t hs.pcEven h
    swFixed := (step_sw_rest h).trans hs.swFixed
    high := step_high_reset h hs.high }

/-! ### Reset (10_state.md R54) -/

theorem reg_resetPort (s : State) (r : RegIdx) : s.resetPort.reg r = (resetRegs s.cfg)[r] := rfl

theorem resetRegs_get (c : Config) (r : RegIdx) : (resetRegs c)[r] =
    if r = 13 then BitVec.ofNat 32 c.spReset else if r = 15 then BitVec.ofNat 32 c.romBase else 0 := by
  fin_cases r <;> rfl

/-- Settles O58: the register file is the table's, register by register, and reset writes no field but it and SW. -/
theorem resetSetsTheTableAndKeepsTheRest : Obligations.ResetSetsTheTableAndKeepsTheRest := by
  unfold Obligations.ResetSetsTheTableAndKeepsTheRest
  intro s
  exact ⟨fun r => (reg_resetPort s r).trans (resetRegs_get s.cfg r), rfl, rfl, rfl, rfl, rfl, rfl, rfl⟩

theorem resetSw_rest : resetSw.extractLsb' 0 28 = 0x20 := by decide

theorem resetPort_inv {s : State} (hc : s.cfg.wf) (hm : s.mem.wf) (hs : s.MemInStores) : s.resetPort.Inv where
  cfg := hc
  mem := hm
  stores := hs
  pcEven := by
    obtain ⟨-, -, -, hrom, -⟩ := hc
    exact ofNat_even hrom
  swFixed := resetSw_rest
  high _ _ _ := rfl

/-- Settles O15: ROM_BASE is even, and the rest is the reset table; `State.reset` is a reset of itself. -/
theorem resetEstablishesTheInvariant : Obligations.ResetEstablishesTheInvariant := by
  unfold Obligations.ResetEstablishesTheInvariant
  refine ⟨?_, fun s => resetPort_inv⟩
  have hreset : State.reset.resetPort = State.reset := rfl
  rw [← hreset]
  exact resetPort_inv (by decide) (by decide) (by simp [State.MemInStores, State.reset])

/-! ### The frame of the flags (10_state.md R38, R43) -/

theorem branchIf_sw {taken : Bool} {off : Int} {s t : State} (h : branchIf taken off s = .next t) : t.sw = s.sw := by
  cases h
  cases taken <;> rfl

section
variable {i : Instr} {s t : State} (h : exec i s = .next t)
include h

theorem sw_of_no_policy (hp : flagPolicy i = .none) : t.sw = s.sw := by
  cases i
  case beq | bne | bcs | bcc | bmi | bpl | bvs | bvc | bhi | bls | bge | blt | bgt | ble | bCondE | b =>
    exact branchIf_sw h
  case swi | unrecU1 | unrecU2 | unrecU3 | unrecU4 | unrecU5 | unrecU6 | unrecU7 | unrecU8 | unrecU9 => cases h; rfl
  case ldrLit | ldr | ldrb | ldrh | adr => cases h; exact setLo_sw s _ _
  case str | strb | strh => cases h; exact memWrite_sw s _ _ _
  all_goals cases hp

theorem flagV_of_logical (hp : flagPolicy i = .logical) : t.flagV = s.flagV := by
  cases i
  case lslImm | lsrImm | asrImm | movImm | and | eor | lslReg | lsrReg | asrReg | rorReg | tst | orr | bic | mvn =>
    cases h; exact flagV_setNZCV _ _
  all_goals cases hp

theorem flagCV_of_multiply (hp : flagPolicy i = .multiply) : t.flagC = false ∧ t.flagV = false := by
  cases i
  case mul => cases h; exact ⟨flagC_setNZCV _ _, flagV_setNZCV _ _⟩
  all_goals cases hp

end

/-- Settles O18: bits 27:0 by what any effect keeps, the rest policy by policy. -/
theorem flagFrame : Obligations.FlagFrame := by
  unfold Obligations.FlagFrame
  intro i s t h
  exact ⟨(exec_effect h).sw_rest, sw_of_no_policy h, flagV_of_logical h, flagCV_of_multiply h⟩

/-! ### The shift primitive (10_state.md R45 to R49) -/

theorem shift_zero (kind : ShiftKind) (v : Word) (cin : Bool) : shift kind v 0 cin = (v, cin) := by
  cases kind <;> rfl

theorem shift_ror_mod (v : Word) (amt : Nat) (cin : Bool) : shift .ror v amt cin = shift .ror v (amt % 32) cin := by
  simp only [shift, shiftRor, Nat.mod_mod]

theorem shift_small (v : Word) (amt : Nat) (cin : Bool) (h1 : 1 ≤ amt) (h31 : amt ≤ 31) :
    shift .lsl v amt cin = (v <<< amt, v.getLsbD (32 - amt)) ∧
    shift .lsr v amt cin = (v >>> amt, v.getLsbD (amt - 1)) ∧
    shift .asr v amt cin = (v.sshiftRight amt, v.getLsbD (amt - 1)) ∧
    shift .ror v amt cin = (v.rotateRight amt, v.getLsbD (amt - 1)) := by
  have h0 : amt ≠ 0 := by omega
  have hmod : amt % 32 = amt := Nat.mod_eq_of_lt (by omega)
  have hror := shiftRor_eq v amt cin (by omega)
  rw [hmod] at hror
  exact ⟨shiftLsl_small v amt cin h0 h31, shiftLsr_small v amt cin h0 h31, shiftAsr_small v amt cin h0 h31, hror⟩

theorem shift_asr_big (v : Word) (amt : Nat) (cin : Bool) (h : 32 ≤ amt) :
    shift .asr v amt cin = (if v.msb then BitVec.allOnes 32 else 0, v.msb) := by
  rw [← sshiftRight_of_32_le v amt h]
  exact shiftAsr_big v amt cin h

theorem shift_lsl_beyond (v : Word) (amt : Nat) (cin : Bool) (h : 32 < amt) : shift .lsl v amt cin = (0, false) := by
  simp only [shift, shiftLsl, show amt ≠ 0 by omega, show ¬ amt ≤ 31 by omega, show amt ≠ 32 by omega, if_false]

theorem shift_lsr_beyond (v : Word) (amt : Nat) (cin : Bool) (h : 32 < amt) : shift .lsr v amt cin = (0, false) := by
  simp only [shift, shiftLsr, show amt ≠ 0 by omega, show ¬ amt ≤ 31 by omega, show amt ≠ 32 by omega, if_false]

/-- Settles O20, range of amounts by range of amounts. -/
theorem shiftPrimitiveEdgeCases : Obligations.ShiftPrimitiveEdgeCases := by
  unfold Obligations.ShiftPrimitiveEdgeCases
  intro v amt cin
  have h32 := shift_asr_big v 32 cin (le_refl 32)
  refine ⟨fun kind => shift_zero kind v cin, shift_small v amt cin, ⟨rfl, rfl, h32⟩, fun h => ?_,
    shift_ror_mod v amt cin⟩
  exact ⟨shift_lsl_beyond v amt cin h, shift_lsr_beyond v amt cin h, (shift_asr_big v amt cin h.le).trans h32.symm⟩

/-! ### Addition and subtraction (10_state.md R40, R41) -/

theorem toNat_setWidth_ofBool (c : Bool) : ((BitVec.ofBool c).setWidth 32).toNat = c.toNat := by
  cases c <;> rfl

theorem toNat_boolNot (c : Bool) : (!c).toNat = 1 - c.toNat := by
  cases c <;> rfl

theorem toInt_wordNot (b : Word) : (~~~ b).toInt = -b.toInt - 1 := by
  have := b.isLt
  simp only [BitVec.toInt_eq_toNat_cond, BitVec.toNat_not]
  split <;> split <;> omega

theorem addWithCarry_eq (a b : Word) (cin : Bool) :
    addWithCarry a b cin = a + b + (BitVec.ofBool cin).setWidth 32 := by
  apply BitVec.eq_of_toNat_eq
  rw [addWithCarry, BitVec.toNat_ofNat, BitVec.toNat_add, BitVec.toNat_add, toNat_setWidth_ofBool, exactSum]
  omega

/-- Read as a signed number, the result is the exact signed sum brought back into range. -/
theorem addWithCarry_toInt (a b : Word) (cin : Bool) :
    (addWithCarry a b cin).toInt = (a.toInt + b.toInt + cin.toNat).bmod (2 ^ 32) := by
  have h : addWithCarry a b cin = BitVec.ofInt 32 (a.toInt + b.toInt + cin.toNat) := by
    rw [BitVec.ofInt_add, BitVec.ofInt_add, BitVec.ofInt_toInt, BitVec.ofInt_toInt, BitVec.ofInt_natCast]
    simp only [addWithCarry, exactSum, BitVec.ofNat_add, BitVec.ofNat_toNat, BitVec.setWidth_eq]
  rw [h, BitVec.toInt_ofInt]

/-- The sign rule of SetAdd: operands of one sign and a result of the other, exactly when the exact signed sum does not
fit. -/
theorem addFlags_v_iff (a b : Word) (cin : Bool) : (addFlags a b cin).v = true ↔
    a.toInt + b.toInt + cin.toNat < -(2 ^ 31) ∨ 2 ^ 31 - 1 < a.toInt + b.toInt + cin.toNat := by
  have ha := And.intro (BitVec.le_toInt a) (BitVec.toInt_lt (x := a))
  have hb := And.intro (BitVec.le_toInt b) (BitVec.toInt_lt (x := b))
  have hc : cin.toNat ≤ 1 := Bool.toNat_le cin
  have hr := addWithCarry_toInt a b cin
  rw [Int.bmod_def] at hr
  simp only [addFlags, BitVec.msb_eq_toInt, Bool.and_eq_true, beq_iff_eq, bne_iff_ne, ne_eq, decide_eq_decide]
  push_cast at hr
  omega

/-- Settles O37: C compares the exact sum, and V is the sign rule. -/
theorem additivePolicyMeansCarryAndOverflow : Obligations.AdditivePolicyMeansCarryAndOverflow := by
  unfold Obligations.AdditivePolicyMeansCarryAndOverflow
  intro a b cin
  exact ⟨addWithCarry_eq a b cin, rfl, beq_iff_eq, decide_eq_true_iff, addFlags_v_iff a b cin⟩

/-- Subtracting is adding the complement, the carry standing for no borrow. -/
theorem subWithBorrow_eq_addWithCarry_not (a b : Word) (cin : Bool) :
    subWithBorrow a b cin = addWithCarry a (~~~ b) cin := by
  have hc : cin.toNat ≤ 1 := Bool.toNat_le cin
  apply BitVec.eq_of_toNat_eq
  rw [subWithBorrow, addWithCarry, BitVec.toNat_ofInt, BitVec.toNat_ofNat, effectiveSubtrahend, exactSum,
    BitVec.toNat_not]
  omega

theorem effectiveSubtrahend_eq (b : Word) (cin : Bool) : effectiveSubtrahend b cin = b.toNat + (!cin).toNat := by
  rw [effectiveSubtrahend, toNat_boolNot]

theorem subWithBorrow_eq (a b : Word) (cin : Bool) :
    subWithBorrow a b cin = a - b - (BitVec.ofBool (!cin)).setWidth 32 := by
  apply BitVec.eq_of_toNat_eq
  rw [subWithBorrow, BitVec.toNat_ofInt, effectiveSubtrahend_eq, BitVec.toNat_sub, BitVec.toNat_sub,
    toNat_setWidth_ofBool]
  have := Bool.toNat_le (!cin)
  omega

theorem subFlags_v_eq (a b : Word) (cin : Bool) : (subFlags a b cin).v = (addFlags a (~~~ b) cin).v := by
  simp only [subFlags, addFlags, subWithBorrow_eq_addWithCarry_not, BitVec.msb_not]
  cases a.msb <;> cases b.msb <;> rfl

/-- The sign rule of SetSub, by that of SetAdd on the complement, which is -b - 1. -/
theorem subFlags_v_iff (a b : Word) (cin : Bool) : (subFlags a b cin).v = true ↔
    a.toInt - b.toInt - (!cin).toNat < -(2 ^ 31) ∨ 2 ^ 31 - 1 < a.toInt - b.toInt - (!cin).toNat := by
  have hsum : a.toInt + (~~~ b).toInt + cin.toNat = a.toInt - b.toInt - (!cin).toNat := by
    have := Bool.toNat_le cin
    rw [toInt_wordNot, toNat_boolNot]
    omega
  rw [subFlags_v_eq, addFlags_v_iff, hsum]

/-- Settles O38: C compares the unwrapped subtrahend, and V is the sign rule. -/
theorem subtractivePolicyMeansNoBorrowAndOverflow : Obligations.SubtractivePolicyMeansNoBorrowAndOverflow := by
  unfold Obligations.SubtractivePolicyMeansNoBorrowAndOverflow
  intro a b cin
  have hc : (subFlags a b cin).c = true ↔ b.toNat + (!cin).toNat ≤ a.toNat := by
    rw [← effectiveSubtrahend_eq]
    exact decide_eq_true_iff
  exact ⟨subWithBorrow_eq a b cin, rfl, beq_iff_eq, hc, subFlags_v_iff a b cin⟩

end Sys2Proof.Machine
end

section
/-! PROOFS. 20_memory.md: the regions, the bytes that are not stored, the read-back, and the display's cells. -/

namespace Sys2Proof.Machine

/-! ### The regions -/

theorem regionAt_rom_iff (c : Config) (a : Nat)
    (hd : rangesDisjoint c.displayBase (2 * c.displayCells) c.romBase c.romWindow) :
    regionAt c a = .rom ↔ c.romBase ≤ a ∧ a < c.romBase + c.romWindow := by
  unfold regionAt
  split_ifs with display rom wram
  · exact iff_of_false nofun (by omega)
  · exact iff_of_true rfl rom
  · exact iff_of_false nofun rom
  · exact iff_of_false nofun rom

theorem regionAt_wram_iff (c : Config) (a : Nat)
    (hd : rangesDisjoint c.displayBase (2 * c.displayCells) c.wramBase c.wramSize)
    (hr : rangesDisjoint c.romBase c.romWindow c.wramBase c.wramSize) :
    regionAt c a = .wram ↔ c.wramBase ≤ a ∧ a < c.wramBase + c.wramSize := by
  unfold regionAt
  split_ifs with display rom wram
  · exact iff_of_false nofun (by omega)
  · exact iff_of_false nofun (by omega)
  · exact iff_of_true rfl wram
  · exact iff_of_false nofun wram

/-- Settles O50: the display test comes first, and each later region is disjoint from those tested before it. -/
theorem regionsDoNotOverlap : Obligations.RegionsDoNotOverlap := by
  unfold Obligations.RegionsDoNotOverlap
  intro c a hc
  obtain ⟨-, -, -, -, -, -, -, -, -, -, hdr, hdw, hrw⟩ := hc
  exact ⟨regionAt_display_iff c a, regionAt_rom_iff c a hdr, regionAt_wram_iff c a hdw hrw⟩

/-! ### Wide reads, from the bytes they compose -/

theorem getLsbD_lowMask (n i : Nat) (hi : i < 32) :
    (BitVec.ofNat 32 (2 ^ n - 1)).getLsbD i = decide (i < n) := by
  rw [BitVec.getLsbD_ofNat, Nat.testBit_two_pow_sub_one, decide_eq_true hi, Bool.true_and]

/-- A read of `n` bytes is the word that has these bytes, cut to them (20_memory.md R85). -/
theorem memRead_eq_of_bytes (s : State) (a w : Word) (n : Nat) (hn : n ≤ 4)
    (h : ∀ k < n, s.readByte (a + BitVec.ofNat 32 k) = w.extractLsb' (8 * k) 8) :
    s.memRead a n = w &&& BitVec.ofNat 32 (2 ^ (8 * n) - 1) := by
  apply BitVec.eq_of_getLsbD_eq
  intro i hi
  rw [memRead_bit s a n i hn, BitVec.getLsbD_and, getLsbD_lowMask _ _ hi, Bool.and_comm]
  by_cases hin : i < 8 * n
  · have hlt : i % 8 < 8 := by omega
    rw [h (i / 8) (by omega), BitVec.getLsbD_extractLsb', Nat.div_add_mod]
    simp [hlt]
  · simp [hin]

theorem memRead_eq_zero (s : State) (a : Word) (n : Nat) (hn : n ≤ 4)
    (h : ∀ k < n, s.readByte (a + BitVec.ofNat 32 k) = 0) : s.memRead a n = 0 := by
  rw [memRead_eq_of_bytes s a 0 n hn fun k hk => (h k hk).trans BitVec.extractLsb'_zero.symm]
  exact BitVec.zero_and

/-! ### Bytes that no store holds -/

theorem readByte_detachedDisplay (s : State) (a : Word) (h : s.region a = .display) (hd : s.displayAttached = false) :
    s.readByte a = 0 := by
  simp [readByte_display s a h, hd]

theorem not_writable_unmapped (s : State) (a : Word) (h : s.region a = .unmapped) : s.writable a = false := by
  simp only [State.writable, h]

theorem not_writable_detachedDisplay (s : State) (a : Word) (h : s.region a = .display)
    (hd : s.displayAttached = false) : s.writable a = false := by
  simp only [State.writable, h, hd]

theorem not_writable_rom (s : State) (a : Word) (h : s.region a = .rom) : s.writable a = false := by
  simp only [State.writable, h]

/-- Settles O51: each byte of the access reads as 0 and is not writable, in either of the two places. -/
theorem unmappedAndUnattachedDisplay : Obligations.UnmappedAndUnattachedDisplay := by
  unfold Obligations.UnmappedAndUnattachedDisplay
  intro s a v n hn h
  constructor
  · refine memRead_eq_zero s a n hn fun k hk => ?_
    rcases h k hk with unmapped | ⟨display, detached⟩
    · exact readByte_unmapped s _ unmapped
    · exact readByte_detachedDisplay s _ display detached
  · refine memWrite_of_not_writable s a v n fun k hk => ?_
    rcases h k hk with unmapped | ⟨display, detached⟩
    · exact not_writable_unmapped s _ unmapped
    · exact not_writable_detachedDisplay s _ display detached

/-! ### The program image -/

theorem readByte_detachedImage (s : State) (a : Word) (h : s.region a = .rom) (hr : s.romAttached = false) :
    s.readByte a = 0 := by
  simp [readByte_rom s a h, hr]

theorem readByte_attachedImage (s : State) (a : Word) (h : s.region a = .rom) (hr : s.romAttached = true) :
    s.readByte a =
      if h : a.toNat - s.cfg.romBase < s.img.length then s.img[a.toNat - s.cfg.romBase] else 0xFF := by
  rw [readByte_rom s a h, if_pos hr]
  split
  next inside => rw [List.getElem?_eq_getElem inside, Option.getD_some]
  next past => rw [List.getElem?_eq_none (Nat.le_of_not_lt past), Option.getD_none]

/-- Settles O52, byte by byte. -/
theorem imageReads : Obligations.ImageReads := by
  unfold Obligations.ImageReads
  intro s a n hn hrom
  constructor
  · intro detached
    exact memRead_eq_zero s a n hn fun k hk => readByte_detachedImage s _ (hrom k hk) detached
  · intro attached k hk
    rw [memRead_byte s a n k hn hk]
    exact readByte_attachedImage s _ (hrom k hk) attached

/-- Settles O53: no byte of the region is writable, and a bus write is a write of `mem` alone. -/
theorem imageIsReadOnly : Obligations.ImageIsReadOnly := by
  unfold Obligations.ImageIsReadOnly
  intro s a v n
  exact ⟨fun hrom => memWrite_of_not_writable s a v n fun k hk => not_writable_rom s _ (hrom k hk),
    memWrite_img s a n v⟩

/-! ### Reading back -/

/-- Byte `k` of a write is read back where it went; `k` stays below 2^32, so no later byte of the write goes there. -/
theorem readByte_memWrite_byte (s : State) (a v : Word) (n k : Nat) (hn : n < 2 ^ 32) (hk : k < n)
    (hw : s.writable (a + BitVec.ofNat 32 k) = true) :
    (s.memWrite a n v).readByte (a + BitVec.ofNat 32 k) = v.extractLsb' (8 * k) 8 := by
  have hoff : (a + BitVec.ofNat 32 k - a).toNat = k := by
    rw [BitVec.add_comm, BitVec.add_sub_cancel, BitVec.toNat_ofNat, Nat.mod_eq_of_lt (by omega)]
  rw [readByte_memWrite s a v n hn, hoff, if_pos ⟨hw, hk⟩]

/-- Settles O54: the bytes read are those of the value written. -/
theorem storeThenLoadReadsBack : Obligations.StoreThenLoadReadsBack := by
  unfold Obligations.StoreThenLoadReadsBack
  intro s a v n hn hw
  exact memRead_eq_of_bytes _ a v n hn fun k hk => readByte_memWrite_byte s a v n k (by omega) hk (hw k hk)

/-! ### The display's cells -/

theorem writable_attachedDisplay (s : State) (a : Word) (h : s.region a = .display) (hd : s.displayAttached = true) :
    s.writable a = true := by
  simp only [State.writable, h, hd]

/-- A cell after a byte write that is kept: each half is the byte written when it is the half addressed, else as before. -/
theorem dispCell_writeByte (s : State) (a : Word) (b : Byte) (c : Nat) (hw : s.writable a = true) :
    (s.writeByte a b).dispCell c =
      ((if s.cfg.displayBase + 2 * c + 1 = a.toNat then b else (s.dispCell c).extractLsb' 8 8) ++
        (if s.cfg.displayBase + 2 * c = a.toNat then b else (s.dispCell c).extractLsb' 0 8) : BitVec 16) := by
  rw [State.dispCell, writeByte_cfg, writeByte_get, writeByte_get, dispCell_lo, dispCell_hi]
  simp only [hw, true_and]

/-- Settles O55: the address is the high half's, the low half's, or in another cell. -/
theorem displayByteWritePatchesHalfACell : Obligations.DisplayByteWritePatchesHalfACell := by
  unfold Obligations.DisplayByteWritePatchesHalfACell
  intro s a b c c' hdisplay hattached
  have hw := writable_attachedDisplay s a hdisplay hattached
  refine ⟨fun hi => ?_, fun lo => ?_, fun notLo notHi => ?_⟩
  · rw [dispCell_writeByte s a b c hw, if_pos (by omega), if_neg (by omega)]
  · rw [dispCell_writeByte s a b c hw, if_neg (by omega), if_pos (by omega)]
  · rw [dispCell_writeByte s a b c' hw, if_neg notHi.symm, if_neg notLo.symm, halves]

/-- In a canonical memory a byte write that is kept is one write of the store at its bus address, in the display too:
rewriting the cell's other half with what it holds changes nothing. -/
theorem writeByte_eq_set (s : State) (a : Word) (b : Byte) (hm : s.mem.wf) (hw : s.writable a = true) :
    s.writeByte a b = { s with mem := s.mem.set a.toNat b } := by
  obtain ⟨m, hmem⟩ := writeByte_eq s a b
  have hm' : m = s.mem.set a.toNat b := by
    have hwf := writeByte_wf s a b hm
    have hget := writeByte_get s a b
    rw [hmem] at hwf hget
    refine Memory.eq_of_get_eq _ _ hwf (Memory.wf_set _ _ _ hm) fun x => ?_
    rw [hget x, Memory.get_set]
    simp only [hw, true_and, eq_comm]
  rw [hmem, hm']

theorem setWidth_and_lowMask (v : Half) : v.setWidth 32 &&& BitVec.ofNat 32 (2 ^ 16 - 1) = v.setWidth 32 := by
  apply BitVec.eq_of_getLsbD_eq
  intro i hi
  rw [BitVec.getLsbD_and, getLsbD_lowMask 16 i hi, BitVec.getLsbD_setWidth]
  by_cases h : i < 16
  · simp [h]
  · simp [h, BitVec.getLsbD_of_ge v i (by omega)]

theorem memWrite_two (s : State) (a v : Word) :
    s.memWrite a 2 v = (s.writeByte a (v.extractLsb' 0 8)).writeByte (a + 1) (v.extractLsb' 8 8) := by
  simp [State.memWrite]

section Cell

variable (s : State) (a : Word) (c : Nat) (hd : s.displayAttached = true) (hc : c < s.cfg.displayCells)
  (hend : s.cfg.displayBase + 2 * s.cfg.displayCells ≤ 2 ^ 32) (ha : a.toNat = s.cfg.displayBase + 2 * c)

include hc hend ha in
/-- The access does not wrap: a cell's second byte is at the next address. -/
theorem cell_next_toNat : (a + 1).toNat = s.cfg.displayBase + 2 * c + 1 := by
  rw [BitVec.toNat_add_of_lt (by simp [ha]; omega), ha]
  rfl

include hc hend ha in
theorem cell_regions : s.region a = .display ∧ s.region (a + 1) = .display := by
  have hnext := cell_next_toNat s a c hc hend ha
  simp only [State.region, regionAt_display_iff]
  omega

include hd hc hend ha in
theorem readByte_cell :
    s.readByte a = (s.dispCell c).extractLsb' 0 8 ∧ s.readByte (a + 1) = (s.dispCell c).extractLsb' 8 8 := by
  obtain ⟨hlo, hhi⟩ := cell_regions s a c hc hend ha
  constructor
  · rw [readByte_display s a hlo, if_pos hd, dispCell_lo, ha]
  · rw [readByte_display s _ hhi, if_pos hd, dispCell_hi, cell_next_toNat s a c hc hend ha]

include hd hc hend ha in
/-- A cell-aligned halfword read is the cell (20_memory.md R86). -/
theorem memRead_cell : s.memRead a 2 = (s.dispCell c).setWidth 32 := by
  obtain ⟨hlo, hhi⟩ := readByte_cell s a c hd hc hend ha
  refine (memRead_eq_of_bytes s a _ 2 (by decide) fun k hk => ?_).trans (setWidth_and_lowMask (s.dispCell c))
  rw [BitVec.extractLsb'_setWidth_of_le (by omega)]
  interval_cases k
  · rw [BitVec.add_zero]
    exact hlo
  · exact hhi

include hd hc hend ha in
/-- A cell-aligned halfword write is one write of the cell (20_memory.md R89). -/
theorem memWrite_cell (v : Word) (hm : s.mem.wf) : s.memWrite a 2 v = s.setDispCell c (v.setWidth 16) := by
  obtain ⟨hlo, hhi⟩ := cell_regions s a c hc hend ha
  have hwlo := writable_attachedDisplay s a hlo hd
  have hwhi := writable_attachedDisplay s (a + 1) hhi hd
  calc s.memWrite a 2 v
      = (s.writeByte a (v.extractLsb' 0 8)).writeByte (a + 1) (v.extractLsb' 8 8) := memWrite_two s a v
    _ = { s with mem := (s.mem.set a.toNat (v.extractLsb' 0 8)).set (a + 1).toNat (v.extractLsb' 8 8) } := by
        rw [writeByte_eq_set _ (a + 1) _ (writeByte_wf s a _ hm) (by rw [writeByte_writable, hwhi]),
          writeByte_eq_set s a _ hm hwlo]
    _ = s.setDispCell c (v.setWidth 16) := by
        rw [State.setDispCell, cell_next_toNat s a c hc hend ha, ha, BitVec.extractLsb'_setWidth_of_le (by decide),
          BitVec.extractLsb'_setWidth_of_le (by decide)]

end Cell

/-- Settles O56: both bytes of the access are the cell's own, low half first. -/
theorem displayFastPath : Obligations.DisplayFastPath := by
  unfold Obligations.DisplayFastPath
  intro s a v c hm hd hc hend ha
  exact ⟨memRead_cell s a c hd hc hend ha, memWrite_cell s a c hd hc hend ha v hm⟩

end Sys2Proof.Machine
end

section
/-! PROOFS. 30_encoding.md: the decoder and the encoder undo each other, and each word has one row of the opcode table. -/

namespace Sys2Proof

/-! ### What the decoder reads from an encoded word -/

theorem uImm_mod {bits n : Nat} (h : uImmOk bits 1 n = true) : n % 2 ^ bits = n := by
  simp only [uImmOk, Bool.and_eq_true, decide_eq_true_eq, Nat.mul_one] at h
  exact Nat.mod_eq_of_lt h.2

/-- The field of a scaled immediate in range gives the immediate back. -/
theorem uImm_scaled {bits scale off : Nat} (h : uImmOk bits scale off = true) :
    off / scale % 2 ^ bits * scale = off := by
  simp only [uImmOk, Bool.and_eq_true, beq_iff_eq, decide_eq_true_eq] at h
  obtain ⟨hstep, hlt⟩ := h
  rw [Nat.mod_eq_of_lt (Nat.div_lt_of_lt_mul (Nat.mul_comm .. ▸ hlt)),
    Nat.div_mul_cancel (Nat.dvd_of_mod_eq_zero hstep)]

@[simp] theorem encShi_fields (op : BitVec 2) (rd rs : LoReg) (amt : Nat) :
    natField (encShi op rd rs amt) 11 5 = (0b000#3 ++ op).toNat ∧ natField (encShi op rd rs amt) 6 5 = amt % 2 ^ 5 ∧
    regField (encShi op rd rs amt) 3 = rs ∧ regField (encShi op rd rs amt) 0 = rd := by
  simp [natField, regField, encShi_top, encShi_amt, encShi_rs, encShi_rd]

@[simp] theorem encImm_fields (op : BitVec 2) (rd : LoReg) (imm : Nat) :
    natField (encImm op rd imm) 11 5 = (0b001#3 ++ op).toNat ∧ regField (encImm op rd imm) 8 = rd ∧
    natField (encImm op rd imm) 0 8 = imm % 2 ^ 8 := by
  simp [natField, regField, encImm_top, encImm_rd, encImm_imm]

@[simp] theorem encPcRel_fields (top : BitVec 5) (rd : LoReg) (off : Nat) :
    natField (encPcRel top rd off) 11 5 = top.toNat ∧ regField (encPcRel top rd off) 8 = rd ∧
    natField (encPcRel top rd off) 0 8 = off / 4 % 2 ^ 8 := by
  simp [natField, regField, encPcRel_top, encPcRel_rd, encPcRel_imm]

@[simp] theorem encMem_fields (top : BitVec 5) (rd rb : LoReg) (imm5 : Nat) :
    natField (encMem top rd rb imm5) 11 5 = top.toNat ∧ natField (encMem top rd rb imm5) 6 5 = imm5 % 2 ^ 5 ∧
    regField (encMem top rd rb imm5) 3 = rb ∧ regField (encMem top rd rb imm5) 0 = rd := by
  simp [natField, regField, encMem_top, encMem_imm, encMem_rb, encMem_rd]

theorem decodeWord_encAlu (op : BitVec 4) (rd rs : LoReg) :
    decodeWord (encAlu op rd rs) = decodeAlu op.toNat rd rs := by
  have hbit := encAlu_bit10 op rd rs
  simp only [decodeWord, natField, regField, encAlu_top, hbit, encAlu_op, encAlu_rs, encAlu_rd]
  rfl

/-- The top five bits are 11010 or 11011, by the high bit of the condition: two arms of the decoder, with one meaning. -/
theorem decodeWord_condWord (cond : BitVec 4) (low : BitVec 8) :
    decodeWord (0b1101#4 ++ cond ++ low : BitVec 16) = decodeCond cond.toNat (low.toInt * 2) low.toNat := by
  obtain hbit | hbit := BitVec.eq_zero_or_eq_one (cond.extractLsb' 3 1)
  all_goals simp [decodeWord, natField, intField, condWord_top, condWord_cond, condWord_low, hbit]

theorem decodeWord_encBcc (cond : BitVec 4) {off : Int} (h : branchOffOk 7 off = true) :
    decodeWord (encBcc cond off) = decodeCond cond.toNat off (BitVec.ofInt 8 (off / 2)).toNat := by
  rw [encBcc, decodeWord_condWord, branchOff8 off h]

/-- Settles O1, format by format: the top bits select the decoder's arm, and the arm reads back each operand. -/
theorem decodeInvertsEncode : Obligations.DecodeInvertsEncode := by
  unfold Obligations.DecodeInvertsEncode
  intro i h
  cases i with
  | lslImm rd rs amt | lsrImm rd rs amt | asrImm rd rs amt =>
    simpa [encode, decodeWord] using uImm_mod (bits := 5) h
  | movImm rd imm | cmpImm rd imm | addImm rd imm | subImm rd imm =>
    simpa [encode, decodeWord] using uImm_mod (bits := 8) h
  | and rd rs | eor rd rs | lslReg rd rs | lsrReg rd rs | asrReg rd rs | adc rd rs | sbc rd rs | rorReg rd rs
  | tst rd rs | neg rd rs | cmpReg rd rs | cmn rd rs | orr rd rs | mul rd rs | bic rd rs | mvn rd rs =>
    exact decodeWord_encAlu _ rd rs
  | ldrLit rd off | adr rd off =>
    simpa [encode, decodeWord] using uImm_scaled (bits := 8) (scale := 4) h
  | str rd rb off | ldr rd rb off =>
    simpa [encode, decodeWord] using uImm_scaled (bits := 5) (scale := 4) h
  | strb rd rb off | ldrb rd rb off =>
    simpa [encode, decodeWord] using uImm_mod (bits := 5) h
  | strh rd rb off | ldrh rd rb off =>
    simpa [encode, decodeWord] using uImm_scaled (bits := 5) (scale := 2) h
  | beq off | bne off | bcs off | bcc off | bmi off | bpl off | bvs off | bvc off
  | bhi off | bls off | bge off | blt off | bgt off | ble off | bCondE off =>
    exact decodeWord_encBcc _ h
  | swi comment =>
    have hcomment : (BitVec.ofNat 8 comment).toNat = comment :=
      (BitVec.toNat_ofNat comment 8).trans (uImm_mod (bits := 8) h)
    exact (decodeWord_condWord 0xF _).trans (congrArg Instr.swi hcomment)
  | b off =>
    simpa [encode, decodeWord, natField, intField, top5_top, top5_rest] using branchOff11 off h
  | unrecU1 bits | unrecU5 bits | unrecU8 bits =>
    simp [encode, decodeWord, natField, top5_top, top5_rest]
  | unrecU2 bits =>
    have hbit := top6_bit10 bits
    simp only [encode, decodeWord, natField, top6_top, hbit, top6_rest]
    rfl
  | unrecU3 bits | unrecU4 bits | unrecU6 bits | unrecU7 bits | unrecU9 bits =>
    -- four fixed bits: the fifth is free, and both arms it selects are the same
    obtain hbit | hbit := BitVec.eq_zero_or_eq_one (bits.extractLsb' 11 1)
    all_goals simp [encode, decodeWord, natField, top4_top, top4_rest, hbit]

/-! ### The fields the decoder reads, written back -/

theorem ofFin_regField (w : Half) (lo : Nat) : BitVec.ofFin (regField w lo) = w.extractLsb' lo 3 := rfl

theorem ofNat_natField (w : Half) (lo len : Nat) : BitVec.ofNat len (natField w lo len) = w.extractLsb' lo len := by
  rw [natField, BitVec.ofNat_toNat, BitVec.setWidth_eq]

theorem ofInt_intField (w : Half) (lo len : Nat) : BitVec.ofInt len (intField w lo len) = w.extractLsb' lo len :=
  BitVec.ofInt_toInt

theorem extractLsb'_eq_of_natField {w : Half} {lo len : Nat} {v : BitVec len} (h : natField w lo len = v.toNat) :
    w.extractLsb' lo len = v := BitVec.eq_of_toNat_eq h

theorem natField_top4 (w : Half) : natField w 12 4 = natField w 11 5 / 2 := by
  simp only [natField, BitVec.extractLsb'_toNat, Nat.shiftRight_eq_div_pow]
  omega

theorem natField_top6 (w : Half) : natField w 10 6 = 2 * natField w 11 5 + (w.getLsbD 10).toNat := by
  simp only [natField, BitVec.extractLsb'_toNat, Nat.shiftRight_eq_div_pow, BitVec.getLsbD, Nat.toNat_testBit]
  omega

theorem top_append_rest {m n : Nat} {w : BitVec (m + n)} {top : BitVec m}
    (h : (w.extractLsb' n m).toNat = top.toNat) : top ++ w.extractLsb' 0 n = w := by
  rw [← BitVec.eq_of_toNat_eq h, BitVec.extractLsb'_append_extractLsb']

section
variable {w : Half}

theorem encMem_of_fields {top : BitVec 5} {imm5 : Nat} (h : natField w 11 5 = top.toNat)
    (himm : imm5 = natField w 6 5) : encMem top (regField w 0) (regField w 3) imm5 = w := by
  rw [encMem, himm, ← extractLsb'_eq_of_natField h, ofNat_natField, ofFin_regField, ofFin_regField]
  iterate 3 rw [BitVec.extractLsb'_append_extractLsb'_eq_extractLsb' (by rfl)]
  exact BitVec.extractLsb'_eq_self

/-- Format SHI is five top bits, imm5 and two registers, as formats LSI and LSH are. -/
theorem encShi_of_fields {op : BitVec 2} (h : natField w 11 5 = (0b000#3 ++ op).toNat) :
    encShi op (regField w 0) (regField w 3) (natField w 6 5) = w :=
  encMem_of_fields h rfl

theorem encImm_of_fields {op : BitVec 2} (h : natField w 11 5 = (0b001#3 ++ op).toNat) :
    encImm op (regField w 8) (natField w 0 8) = w := by
  rw [encImm, ← extractLsb'_eq_of_natField h, ofNat_natField, ofFin_regField]
  iterate 2 rw [BitVec.extractLsb'_append_extractLsb'_eq_extractLsb' (by rfl)]
  exact BitVec.extractLsb'_eq_self

theorem encPcRel_of_fields {top : BitVec 5} (h : natField w 11 5 = top.toNat) :
    encPcRel top (regField w 8) (natField w 0 8 * 4) = w := by
  rw [encPcRel, Nat.mul_div_cancel _ (by decide), ← extractLsb'_eq_of_natField h, ofNat_natField, ofFin_regField]
  iterate 2 rw [BitVec.extractLsb'_append_extractLsb'_eq_extractLsb' (by rfl)]
  exact BitVec.extractLsb'_eq_self

theorem encAlu_of_fields (h : natField w 10 6 = (0b010000#6).toNat) :
    encAlu (w.extractLsb' 6 4) (regField w 0) (regField w 3) = w := by
  rw [encAlu, ← extractLsb'_eq_of_natField h, ofFin_regField, ofFin_regField]
  iterate 3 rw [BitVec.extractLsb'_append_extractLsb'_eq_extractLsb' (by rfl)]
  exact BitVec.extractLsb'_eq_self

theorem condWord_of_fields (h : natField w 12 4 = (0b1101#4).toNat) :
    (0b1101#4 ++ w.extractLsb' 8 4 ++ w.extractLsb' 0 8 : BitVec 16) = w := by
  rw [← extractLsb'_eq_of_natField h]
  iterate 2 rw [BitVec.extractLsb'_append_extractLsb'_eq_extractLsb' (by rfl)]
  exact BitVec.extractLsb'_eq_self

end

theorem encode_decodeAlu (op : BitVec 4) (rd rs : LoReg) : encode (decodeAlu op.toNat rd rs) = encAlu op rd rs := by
  obtain ⟨n, hn⟩ := op
  interval_cases n <;> rfl

theorem encode_decodeCond (cond : BitVec 4) (low : BitVec 8) :
    encode (decodeCond cond.toNat (low.toInt * 2) low.toNat) = (0b1101#4 ++ cond ++ low : BitVec 16) := by
  have hoff : BitVec.ofInt 8 (low.toInt * 2 / 2) = low := by
    rw [Int.mul_ediv_cancel _ (by decide), BitVec.ofInt_toInt]
  have hcomment : BitVec.ofNat 8 low.toNat = low := by
    rw [BitVec.ofNat_toNat, BitVec.setWidth_eq]
  obtain ⟨n, hn⟩ := cond
  interval_cases n
  all_goals simp only [decodeCond, encode, encBcc, BitVec.toNat_ofFin, hoff, hcomment]
  all_goals rfl

/-- Settles O2, arm by arm of the decoder: the top bits that select the arm and the fields it reads are the whole word.
Case `h_k` is the arm of the top five bits k - 1; `h_31` is the last arm, U9. -/
theorem encodeInvertsDecode : Obligations.EncodeInvertsDecode := by
  unfold Obligations.EncodeInvertsDecode
  intro w
  have htop4 := natField_top4 w
  have htop6 := natField_top6 w
  unfold decodeWord
  split
  case h_1 h | h_2 h | h_3 h => exact encShi_of_fields h
  case h_5 h | h_6 h | h_7 h | h_8 h => exact encImm_of_fields h
  case h_9 h =>
    rw [h] at htop6
    split
    · next hbit => exact top_append_rest (htop6.trans (by rw [hbit]; rfl))
    · next hbit =>
      rw [Bool.not_eq_true] at hbit
      exact (encode_decodeAlu (w.extractLsb' 6 4) _ _).trans (encAlu_of_fields (htop6.trans (by rw [hbit]; rfl)))
  case h_10 h | h_21 h => exact encPcRel_of_fields h
  case h_13 h | h_14 h | h_17 h | h_18 h => exact encMem_of_fields h (Nat.mul_div_cancel _ (by decide))
  case h_15 h | h_16 h => exact encMem_of_fields h rfl
  case h_27 h | h_28 h =>
    rw [h] at htop4
    exact (encode_decodeCond (w.extractLsb' 8 4) (w.extractLsb' 0 8)).trans (condWord_of_fields htop4)
  case h_29 h =>
    rw [encode, Int.mul_ediv_cancel _ (by decide), ofInt_intField]
    exact top_append_rest h
  case h_4 h | h_22 h | h_30 h => exact top_append_rest h
  case h_11 h | h_12 h | h_19 h | h_20 h | h_23 h | h_24 h | h_25 h | h_26 h =>
    rw [h] at htop4
    exact top_append_rest htop4
  case h_31 =>
    have hlt := natField_lt w 11 5
    simp only [imp_false] at *
    exact top_append_rest (show natField w 12 4 = 15 by omega)

/-! ### The row of a word -/

/-- A field that a mask covers is the same in the masked word. -/
theorem natField_of_and {w mask v : Half} (lo len : Nat) (hmask : mask.extractLsb' lo len = BitVec.allOnes len)
    (h : w &&& mask = v) : natField w lo len = natField v lo len := by
  rw [← h, natField, natField, BitVec.extractLsb'_and, hmask, BitVec.and_allOnes]

theorem getLsbD_of_and {w mask v : Half} (k : Nat) (hmask : mask.getLsbD k = true) (h : w &&& mask = v) :
    w.getLsbD k = v.getLsbD k := by
  rw [← h, BitVec.getLsbD_and, hmask, Bool.and_true]

/-- A word with the fixed bits of a row decodes to an instruction of that row, mask by mask: the decoder's choice reads
only bits that the mask covers. -/
theorem decodeWord_row {w : Half} {i : Instr} (h : w &&& i.tableMask = i.tableMatch) :
    i.tableMask = (decodeWord w).tableMask ∧ i.tableMatch = (decodeWord w).tableMatch := by
  cases i with
  | lslImm | lsrImm | asrImm | unrecU1 | movImm | cmpImm | addImm | subImm | ldrLit | str | ldr | strb | ldrb | strh
  | ldrh | adr | unrecU5 | b | unrecU8 =>
    dsimp only [Instr.tableMask, Instr.tableMatch] at h
    rw [decodeWord, natField_of_and 11 5 rfl h]
    exact ⟨rfl, rfl⟩
  | and | eor | lslReg | lsrReg | asrReg | adc | sbc | rorReg | tst | neg | cmpReg | cmn | orr | mul | bic | mvn =>
    dsimp only [Instr.tableMask, Instr.tableMatch] at h
    rw [decodeWord, natField_of_and 11 5 rfl h, natField_of_and 6 4 rfl h, getLsbD_of_and 10 rfl h]
    exact ⟨rfl, rfl⟩
  | unrecU2 =>
    dsimp only [Instr.tableMask, Instr.tableMatch] at h
    rw [decodeWord, natField_of_and 11 5 rfl h, getLsbD_of_and 10 rfl h]
    exact ⟨rfl, rfl⟩
  | beq | bne | bcs | bcc | bmi | bpl | bvs | bvc | bhi | bls | bge | blt | bgt | ble | bCondE | swi =>
    dsimp only [Instr.tableMask, Instr.tableMatch] at h
    rw [decodeWord, natField_of_and 11 5 rfl h, natField_of_and 8 4 rfl h]
    exact ⟨rfl, rfl⟩
  | unrecU3 | unrecU4 | unrecU6 | unrecU7 | unrecU9 =>
    dsimp only [Instr.tableMask, Instr.tableMatch] at h
    have htop : natField w 11 5 / 2 = _ := (natField_top4 w).symm.trans (natField_of_and 12 4 rfl h)
    obtain hlow | hlow :
        natField w 11 5 = 2 * (natField w 11 5 / 2) ∨ natField w 11 5 = 2 * (natField w 11 5 / 2) + 1 := by omega
    all_goals
      rw [decodeWord, hlow, htop]
      exact ⟨rfl, rfl⟩

/-- The lemmas of `Laws.EncodesItsRow`, for any instruction. -/
theorem encode_row (i : Instr) : encode i &&& i.tableMask = i.tableMatch := by
  open Laws.EncodesItsRow in
  cases i
  exacts [
    lslImm _ _ _, lsrImm _ _ _, asrImm _ _ _, unrecU1 _, movImm _ _, cmpImm _ _, addImm _ _, subImm _ _,
    and _ _, eor _ _, lslReg _ _, lsrReg _ _, asrReg _ _, adc _ _, sbc _ _, rorReg _ _, tst _ _, neg _ _,
    cmpReg _ _, cmn _ _, orr _ _, mul _ _, bic _ _, mvn _ _, unrecU2 _, ldrLit _ _, unrecU3 _, str _ _ _,
    ldr _ _ _, strb _ _ _, ldrb _ _ _, strh _ _ _, ldrh _ _ _, unrecU4 _, adr _ _, unrecU5 _, unrecU6 _,
    unrecU7 _, beq _, bne _, bcs _, bcc _, bmi _, bpl _, bvs _, bvc _, bhi _, bls _, bge _, blt _, bgt _,
    ble _, bCondE _, swi _, b _, unrecU8 _, unrecU9 _]

/-- Settles O3: the word is the encoding of what it decodes to, which has the fixed bits of its row; and any row whose
fixed bits it has is the row it decodes to. -/
theorem eachWordHasExactlyItsTableRow : Obligations.EachWordHasExactlyItsTableRow := by
  unfold Obligations.EachWordHasExactlyItsTableRow
  intro w
  refine ⟨?_, fun i h => decodeWord_row h⟩
  calc w &&& (decodeWord w).tableMask
      = encode (decodeWord w) &&& (decodeWord w).tableMask := by rw [encodeInvertsDecode w]
    _ = (decodeWord w).tableMatch := encode_row _

/-- Settles O4: eleven closed words, each run through the decoder. -/
theorem sampleWordsDecode : Obligations.SampleWordsDecode := by
  unfold Obligations.SampleWordsDecode
  decide

end Sys2Proof
end

section
/-! PROOFS. 40_shift_immediate.md: LSL, LSR and ASR by an immediate. -/

namespace Sys2Proof.Machine

/-- What a shift instruction leaves, once the shift primitive's result and carry-out are known: Rd is the result and the
flags are those of SetLogical (10_state.md R39). -/
theorem shiftInto_completes {kind : ShiftKind} {v r : Word} {amt : Nat} {c : Bool} {s : State} (rd : LoReg)
    (h : shift kind v amt s.flagC = (r, c)) :
    ∃ t, shiftInto kind rd v amt s = .next t ∧ t.lo rd = r ∧
      t.flagN = r.msb ∧ t.flagZ = decide (r = 0) ∧ t.flagC = c ∧ t.flagV = s.flagV := by
  have hnext : shiftInto kind rd v amt s = .next ((s.setLo rd r).setLogical r c) := by
    simp only [shiftInto, h]
  have hflags := nzcv_setLogical (s.setLo rd r) r c
  exact ⟨_, hnext, by simp, (nzcv_ext_iff _ _).mp hflags⟩

/-- The shift primitive at every amount that an immediate can hold: amount 0 is no shift and keeps C. -/
theorem shift_le_31 (v : Word) (amt : Nat) (cin : Bool) (h : amt ≤ 31) :
    shift .lsl v amt cin = (v <<< amt, if amt = 0 then cin else v.getLsbD (32 - amt)) ∧
    shift .lsr v amt cin = (v >>> amt, if amt = 0 then cin else v.getLsbD (amt - 1)) ∧
    shift .asr v amt cin = (v.sshiftRight amt, if amt = 0 then cin else v.getLsbD (amt - 1)) := by
  rcases Nat.eq_zero_or_pos amt with rfl | hpos
  · simp [shift_zero]
  · obtain ⟨hlsl, hlsr, hasr, -⟩ := shift_small v amt cin hpos h
    simp only [if_neg hpos.ne']
    exact ⟨hlsl, hlsr, hasr⟩

theorem exec_lslImm (rd rs : LoReg) (amt : Nat) (s : State) :
    exec (.lslImm rd rs amt) s = shiftInto .lsl rd (s.lo rs) amt s := rfl

/-- The amount 0 of a right shift is 0, not 32 (decision D5). -/
theorem exec_lsrImm (rd rs : LoReg) (amt : Nat) (s : State) :
    exec (.lsrImm rd rs amt) s = shiftInto .lsr rd (s.lo rs) amt s := rfl

/-- As for LSR, the amount is the field as given (decision D5). -/
theorem exec_asrImm (rd rs : LoReg) (amt : Nat) (s : State) :
    exec (.asrImm rd rs amt) s = shiftInto .asr rd (s.lo rs) amt s := rfl

/-- Settles O21: each instruction is the shared shift of x[Rs]; an arithmetic shift keeps the sign, so its N is that of
x[Rs]. -/
theorem immediateShifts : Obligations.ImmediateShifts := by
  unfold Obligations.ImmediateShifts
  intro rd rs amt s hamt
  obtain ⟨hlsl, hlsr, hasr⟩ := shift_le_31 (s.lo rs) amt s.flagC hamt
  rw [exec_lslImm, exec_lsrImm, exec_asrImm, ← BitVec.msb_sshiftRight (x := s.lo rs) (n := amt)]
  exact ⟨shiftInto_completes rd hlsl, shiftInto_completes rd hlsr, shiftInto_completes rd hasr⟩

end Sys2Proof.Machine
end

section
/-! PROOFS. 41_immediate_alu.md: MOV, CMP, ADD and SUB by an immediate. -/

namespace Sys2Proof.Machine

/-! ### The immediate as a word (R150 to R153): zero-extended, so never negative -/

theorem toNat_immWord {imm : Nat} (h : imm ≤ 255) : (immWord imm).toNat = imm := by
  rw [immWord, BitVec.toNat_ofNat]
  omega

theorem msb_immWord {imm : Nat} (h : imm ≤ 255) : (immWord imm).msb = false := by
  rw [BitVec.msb_eq_false_iff_two_mul_lt, toNat_immWord h]
  omega

theorem eq_immWord_iff {imm : Nat} (h : imm ≤ 255) (a : Word) : a = immWord imm ↔ a.toNat = imm := by
  rw [← BitVec.toNat_inj, toNat_immWord h]

/-! ### Addition without a carry in, subtraction without a borrow in (10_state.md R40, R41) -/

theorem addWithCarry_false (a b : Word) : addWithCarry a b false = a + b := by
  rw [addWithCarry_eq]
  exact BitVec.add_zero _

theorem subWithBorrow_true (a b : Word) : subWithBorrow a b true = a - b := by
  rw [subWithBorrow_eq]
  exact BitVec.sub_zero _

/-- The flags of an ADD of an immediate with the sum `r`: the immediate's sign is clear, so V compares two signs only. -/
theorem addFlags_immWord {imm : Nat} (h : imm ≤ 255) {a r : Word} (hr : r = a + immWord imm) :
    addFlags a (immWord imm) false = ⟨r.msb, decide (r = 0), decide (2 ^ 32 ≤ a.toNat + imm), !a.msb && r.msb⟩ := by
  have hv : (a.msb == false && r.msb != a.msb) = (!a.msb && r.msb) := by cases a.msb <;> simp
  simp only [addFlags, exactSum, addWithCarry_false, toNat_immWord h, msb_immWord h, ← hr, hv]
  rfl

/-- The flags of a SUB of an immediate with the difference `r`, as for ADD. -/
theorem subFlags_immWord {imm : Nat} (h : imm ≤ 255) {a r : Word} (hr : r = a - immWord imm) :
    subFlags a (immWord imm) true = ⟨r.msb, decide (r = 0), decide (imm ≤ a.toNat), a.msb && !r.msb⟩ := by
  have hv : (a.msb != false && r.msb != a.msb) = (a.msb && !r.msb) := by cases a.msb <;> simp
  simp only [subFlags, effectiveSubtrahend_eq, subWithBorrow_true, toNat_immWord h, msb_immWord h, ← hr, hv]
  rfl

/-! ### The four instructions as register and flag writes -/

theorem lo_setLo_setNZCV (s : State) (rd : LoReg) (r : Word) (f : NZCV) : ((s.setLo rd r).setNZCV f).lo rd = r := by
  simp

/-- R150 with C kept (decision D9): the immediate is never negative, so N is cleared. -/
theorem exec_movImm {imm : Nat} (h : imm ≤ 255) (rd : LoReg) (s : State) : exec (.movImm rd imm) s =
    .next ((s.setLo rd (immWord imm)).setNZCV ⟨false, decide (immWord imm = 0), s.flagC, s.flagV⟩) := by
  rw [← msb_immWord h]
  rfl

theorem exec_cmpImm (rd : LoReg) (imm : Nat) (s : State) :
    exec (.cmpImm rd imm) s = .next (s.setNZCV (subFlags (s.lo rd) (immWord imm) true)) := rfl

theorem exec_addImm (rd : LoReg) (imm : Nat) (s : State) : exec (.addImm rd imm) s =
    .next ((s.setLo rd (s.lo rd + immWord imm)).setNZCV (addFlags (s.lo rd) (immWord imm) false)) := by
  rw [← addWithCarry_false]
  rfl

theorem exec_subImm (rd : LoReg) (imm : Nat) (s : State) : exec (.subImm rd imm) s =
    .next ((s.setLo rd (s.lo rd - immWord imm)).setNZCV (subFlags (s.lo rd) (immWord imm) true)) := by
  rw [← subWithBorrow_true]
  rfl

/-! ### The obligations -/

/-- Settles O22: as a word the immediate has its own value, so it is zero exactly when the number is. -/
theorem moveImmediate : Obligations.MoveImmediate := by
  unfold Obligations.MoveImmediate
  intro rd imm s himm
  have hzero : immWord imm = 0 ↔ imm = 0 := eq_comm.trans ((eq_immWord_iff himm 0).trans eq_comm)
  rw [exec_movImm himm, decide_eq_decide.mpr hzero]
  exact ⟨_, rfl, by rw [lo_setLo_setNZCV, toNat_immWord himm], (nzcv_ext_iff _ _).mp (nzcv_setNZCV _ _)⟩

/-- Settles O23: CMP is a flag write alone, and the difference is zero exactly when x[Rd] is the immediate. -/
theorem compareImmediate : Obligations.CompareImmediate := by
  unfold Obligations.CompareImmediate
  intro rd imm s himm
  have hzero : s.lo rd - immWord imm = 0 ↔ (s.lo rd).toNat = imm := sub_eq_zero.trans (eq_immWord_iff himm _)
  rw [exec_cmpImm, subFlags_immWord himm rfl, decide_eq_decide.mpr hzero]
  exact ⟨_, rfl, rfl, rfl, (nzcv_ext_iff _ _).mp (nzcv_setNZCV _ _)⟩

/-- Settles O24: Rd holds the sum after the flag write too, and the flags are that sum's. -/
theorem addImmediate : Obligations.AddImmediate := by
  unfold Obligations.AddImmediate
  intro rd imm s himm
  have hlo := lo_setLo_setNZCV s rd (s.lo rd + immWord imm) (addFlags (s.lo rd) (immWord imm) false)
  exact ⟨_, exec_addImm rd imm s, hlo, (nzcv_ext_iff _ _).mp ((nzcv_setNZCV _ _).trans (addFlags_immWord himm hlo))⟩

/-- Settles O25: as for ADD, with the difference; C is set when nothing was borrowed. -/
theorem subtractImmediate : Obligations.SubtractImmediate := by
  unfold Obligations.SubtractImmediate
  intro rd imm s himm
  have hlo := lo_setLo_setNZCV s rd (s.lo rd - immWord imm) (subFlags (s.lo rd) (immWord imm) true)
  exact ⟨_, exec_subImm rd imm s, hlo, (nzcv_ext_iff _ _).mp ((nzcv_setNZCV _ _).trans (subFlags_immWord himm hlo))⟩

end Sys2Proof.Machine
end

section
/-! PROOFS. 42_register_alu.md: the sixteen two-register operations, and a branch on the flags that CMP leaves. -/

namespace Sys2Proof.Machine

/-! ### The sixteen instructions (R161 to R176) as the shared operations, both operands read before any write (R160) -/

section
variable (rd rs : LoReg) (s : State)

theorem exec_and : exec (.and rd rs) s = logicalInto rd (s.lo rd &&& s.lo rs) s := rfl
theorem exec_eor : exec (.eor rd rs) s = logicalInto rd (s.lo rd ^^^ s.lo rs) s := rfl
theorem exec_orr : exec (.orr rd rs) s = logicalInto rd (s.lo rd ||| s.lo rs) s := rfl
theorem exec_bic : exec (.bic rd rs) s = logicalInto rd (s.lo rd &&& ~~~ s.lo rs) s := rfl
theorem exec_mvn : exec (.mvn rd rs) s = logicalInto rd (~~~ s.lo rs) s := rfl
theorem exec_tst : exec (.tst rd rs) s = .next (s.setLogical (s.lo rd &&& s.lo rs) s.flagC) := rfl

/-- The amount is the low byte of x[Rs] (decision D7), in this and the next three. -/
theorem exec_lslReg : exec (.lslReg rd rs) s = shiftInto .lsl rd (s.lo rd) ((s.lo rs).toNat % 256) s := rfl
theorem exec_lsrReg : exec (.lsrReg rd rs) s = shiftInto .lsr rd (s.lo rd) ((s.lo rs).toNat % 256) s := rfl
theorem exec_asrReg : exec (.asrReg rd rs) s = shiftInto .asr rd (s.lo rd) ((s.lo rs).toNat % 256) s := rfl
theorem exec_rorReg : exec (.rorReg rd rs) s = shiftInto .ror rd (s.lo rd) ((s.lo rs).toNat % 256) s := rfl

theorem exec_adc : exec (.adc rd rs) s = .next ((s.setLo rd (addWithCarry (s.lo rd) (s.lo rs) s.flagC)).setNZCV
    (addFlags (s.lo rd) (s.lo rs) s.flagC)) := rfl
theorem exec_sbc : exec (.sbc rd rs) s = .next ((s.setLo rd (subWithBorrow (s.lo rd) (s.lo rs) s.flagC)).setNZCV
    (subFlags (s.lo rd) (s.lo rs) s.flagC)) := rfl
theorem exec_neg : exec (.neg rd rs) s = .next ((s.setLo rd (addWithCarry 0 (~~~ s.lo rs) true)).setNZCV
    (addFlags 0 (~~~ s.lo rs) true)) := rfl
theorem exec_cmpReg : exec (.cmpReg rd rs) s = .next (s.setNZCV (subFlags (s.lo rd) (s.lo rs) true)) := rfl
theorem exec_cmn : exec (.cmn rd rs) s = .next (s.setNZCV (addFlags (s.lo rd) (s.lo rs) false)) := rfl
theorem exec_mul : exec (.mul rd rs) s = .next ((s.setLo rd (s.lo rd * s.lo rs)).setMul (s.lo rd * s.lo rs)) := rfl

end

/-! ### The logical operations (R161, R162, R169, R173, R175, R176) -/

theorem logicalInto_completes (rd : LoReg) (r : Word) (s : State) :
    ∃ t, logicalInto rd r s = .next t ∧ LogicalOutcome rd r s t :=
  ⟨_, rfl, by simp, (nzcv_ext_iff _ _).mp (nzcv_setLogical (s.setLo rd r) r s.flagC)⟩

/-- Settles O26: each of the five is the shared logical write of its own result. -/
theorem logicalOperations : Obligations.LogicalOperations := by
  unfold Obligations.LogicalOperations
  intro rd rs s
  rw [exec_and, exec_eor, exec_orr, exec_bic, exec_mvn]
  exact ⟨logicalInto_completes rd _ s, logicalInto_completes rd _ s, logicalInto_completes rd _ s,
    logicalInto_completes rd _ s, logicalInto_completes rd _ s⟩

/-- Settles O27: TST is a flag write alone, and the sign of an AND is the AND of the signs. -/
theorem testBits : Obligations.TestBits := by
  unfold Obligations.TestBits
  intro rd rs s
  rw [exec_tst, ← BitVec.msb_and]
  exact ⟨_, rfl, rfl, rfl, (nzcv_ext_iff _ _).mp (nzcv_setLogical _ _ _)⟩

/-! ### The shift primitive at every amount (10_state.md R45 to R49), in the library's shifts -/

theorem shift_lsl_eq (v : Word) (amt : Nat) (cin : Bool) : shift .lsl v amt cin =
    (v <<< amt, if amt = 0 then cin else if amt ≤ 32 then v.getLsbD (32 - amt) else false) := by
  rcases Nat.lt_trichotomy amt 32 with h | rfl | h
  · obtain ⟨hlsl, -, -⟩ := shift_le_31 v amt cin (Nat.le_of_lt_succ h)
    rw [hlsl, if_pos h.le]
  · rw [BitVec.shiftLeft_eq_zero le_rfl]
    rfl
  · rw [shift_lsl_beyond v amt cin h, BitVec.shiftLeft_eq_zero h.le, if_neg (by omega), if_neg (by omega)]
    rfl

theorem shift_lsr_eq (v : Word) (amt : Nat) (cin : Bool) : shift .lsr v amt cin =
    (v >>> amt, if amt = 0 then cin else if amt ≤ 32 then v.getLsbD (amt - 1) else false) := by
  rcases Nat.lt_trichotomy amt 32 with h | rfl | h
  · obtain ⟨-, hlsr, -⟩ := shift_le_31 v amt cin (Nat.le_of_lt_succ h)
    rw [hlsr, if_pos h.le]
  · rw [BitVec.ushiftRight_eq_zero le_rfl]
    rfl
  · rw [shift_lsr_beyond v amt cin h, BitVec.ushiftRight_eq_zero h.le, if_neg (by omega), if_neg (by omega)]
    rfl

/-- From 32 on the carry-out is the sign, which at 32 is also bit 31. -/
theorem shift_asr_eq (v : Word) (amt : Nat) (cin : Bool) : shift .asr v amt cin =
    (v.sshiftRight amt, if amt = 0 then cin else if amt ≤ 32 then v.getLsbD (amt - 1) else v.msb) := by
  rcases Nat.lt_trichotomy amt 32 with h | rfl | h
  · obtain ⟨-, -, hasr⟩ := shift_le_31 v amt cin (Nat.le_of_lt_succ h)
    rw [hasr, if_pos h.le]
  · exact shiftAsr_big v 32 cin le_rfl
  · rw [if_neg (by omega), if_neg (by omega)]
    exact shiftAsr_big v amt cin h.le

/-- The bit that a rotation carries out is the one it brings to the top. -/
theorem msb_rotateRight (v : Word) {amt : Nat} (h : amt % 32 ≠ 0) :
    (v.rotateRight amt).msb = v.getLsbD (amt % 32 - 1) := by
  have htop : ¬ 32 - 1 < 32 - amt % 32 := by omega
  have hidx : 32 - 1 - (32 - amt % 32) = amt % 32 - 1 := by omega
  rw [BitVec.msb_eq_getLsbD_last, BitVec.getLsbD_rotateRight, decide_eq_false htop, hidx]
  rfl

theorem shift_ror_eq (v : Word) (amt : Nat) (cin : Bool) : shift .ror v amt cin =
    (v.rotateRight amt, if amt % 32 = 0 then cin else (v.rotateRight amt).msb) := by
  by_cases h : amt % 32 = 0
  · have hrot : v.rotateRight amt = v := by simp [BitVec.rotateRight, BitVec.rotateRightAux, h]
    rw [shift_ror_mod, h, shift_zero, if_pos rfl, hrot]
  · rw [if_neg h, msb_rotateRight v h]
    exact shiftRor_eq v amt cin h

/-! ### The shifts by a register (R163, R164, R165, R168) -/

/-- `shiftInto_completes` with N and Z read off the register after. -/
theorem shiftInto_completes_lo {kind : ShiftKind} {v r : Word} {amt : Nat} {c : Bool} {s : State} (rd : LoReg)
    (h : shift kind v amt s.flagC = (r, c)) :
    ∃ t, shiftInto kind rd v amt s = .next t ∧ t.lo rd = r ∧
      t.flagN = (t.lo rd).msb ∧ t.flagZ = decide (t.lo rd = 0) ∧ t.flagC = c ∧ t.flagV = s.flagV := by
  obtain ⟨t, hnext, rfl, hflags⟩ := shiftInto_completes rd h
  exact ⟨t, hnext, rfl, hflags⟩

/-- Settles O28: the shared shift, left, by the low byte of x[Rs]. -/
theorem shiftLeftByRegister : Obligations.ShiftLeftByRegister := by
  unfold Obligations.ShiftLeftByRegister
  intro rd rs s
  rw [exec_lslReg]
  exact shiftInto_completes_lo rd (shift_lsl_eq _ _ _)

/-- Settles O29: the shared shift, right, by the low byte of x[Rs]. -/
theorem shiftRightByRegister : Obligations.ShiftRightByRegister := by
  unfold Obligations.ShiftRightByRegister
  intro rd rs s
  rw [exec_lsrReg]
  exact shiftInto_completes_lo rd (shift_lsr_eq _ _ _)

/-- Settles O30: an arithmetic shift keeps the sign, so N is that of x[Rd] before. -/
theorem arithmeticShiftByRegister : Obligations.ArithmeticShiftByRegister := by
  unfold Obligations.ArithmeticShiftByRegister
  intro rd rs s
  rw [exec_asrReg]
  obtain ⟨t, hnext, hlo, hn, hflags⟩ := shiftInto_completes_lo rd (shift_asr_eq (s.lo rd) _ s.flagC)
  exact ⟨t, hnext, hlo, by rw [hn, hlo, BitVec.msb_sshiftRight], hflags⟩

/-- Settles O31: 32 divides 256, so modulo 32 the low byte of x[Rs] is x[Rs] itself. -/
theorem rotateByRegister : Obligations.RotateByRegister := by
  unfold Obligations.RotateByRegister
  intro rd rs s
  rw [exec_rorReg, ← Nat.mod_mod_of_dvd (s.lo rs).toNat (by decide : 32 ∣ 256)]
  obtain ⟨t, hnext, hlo, hn, hz, hc, hv⟩ := shiftInto_completes_lo rd (shift_ror_eq (s.lo rd) _ s.flagC)
  exact ⟨t, hnext, hlo, hn, hz, by rw [hc, hlo], hv⟩

/-! ### Addition, subtraction and comparison (R166, R167, R170, R171, R172) -/

/-- The flags of SetAdd, from the sum. -/
theorem addFlags_of_sum {a b r : Word} {cin : Bool} (hr : r = addWithCarry a b cin) : addFlags a b cin =
    ⟨r.msb, decide (r = 0), decide (0xFFFFFFFF < a.toNat + b.toNat + cin.toNat), a.msb == b.msb && r.msb != a.msb⟩ := by
  subst hr
  rfl

/-- The flags of SetSub, from the difference; C is against the unwrapped subtrahend (decision D11). -/
theorem subFlags_of_difference {a b r : Word} {cin : Bool} (hr : r = subWithBorrow a b cin) : subFlags a b cin =
    ⟨r.msb, decide (r = 0), decide (b.toNat + (!cin).toNat ≤ a.toNat), a.msb != b.msb && r.msb != a.msb⟩ := by
  subst hr
  rw [← effectiveSubtrahend_eq]
  rfl

/-- Settles O32: Rd holds the sum with C, and the flags are that sum's. -/
theorem addWithCarryIn : Obligations.AddWithCarryIn := by
  unfold Obligations.AddWithCarryIn
  intro rd rs s
  have hlo := lo_setLo_setNZCV s rd (addWithCarry (s.lo rd) (s.lo rs) s.flagC) (addFlags (s.lo rd) (s.lo rs) s.flagC)
  exact ⟨_, exec_adc rd rs s, hlo.trans (addWithCarry_eq _ _ _),
    (nzcv_ext_iff _ _).mp ((nzcv_setNZCV _ _).trans (addFlags_of_sum hlo))⟩

/-- Settles O33: as for ADC, with the difference. -/
theorem subtractWithBorrow : Obligations.SubtractWithBorrow := by
  unfold Obligations.SubtractWithBorrow
  intro rd rs s
  have hlo := lo_setLo_setNZCV s rd (subWithBorrow (s.lo rd) (s.lo rs) s.flagC) (subFlags (s.lo rd) (s.lo rs) s.flagC)
  exact ⟨_, exec_sbc rd rs s, hlo.trans (subWithBorrow_eq _ _ _),
    (nzcv_ext_iff _ _).mp ((nzcv_setNZCV _ _).trans (subFlags_of_difference hlo))⟩

theorem addWithCarry_zero_not (b : Word) : addWithCarry 0 (~~~ b) true = -b := by
  rw [← subWithBorrow_eq_addWithCarry_not, subWithBorrow_true]
  exact zero_sub b

theorem addFlags_zero_not_z (b : Word) : (addFlags 0 (~~~ b) true).z = decide (b = 0) := by
  have hz : (addFlags 0 (~~~ b) true).z = decide (-b = 0) := congrArg (fun r => decide (r = 0)) (addWithCarry_zero_not b)
  rw [hz, decide_eq_decide.mpr neg_eq_zero]

/-- Negating carries out only when the complement is all ones. -/
theorem addFlags_zero_not_c (b : Word) : (addFlags 0 (~~~ b) true).c = decide (b = 0) := by
  have hb := b.isLt
  have h0 : (0 : Word).toNat = 0 := rfl
  refine decide_eq_decide.mpr ?_
  rw [exactSum, ← BitVec.toNat_inj, BitVec.toNat_not, Bool.toNat_true, h0]
  omega

/-- Negating leaves the signed range only at the least number, the one with no opposite. -/
theorem addFlags_zero_not_v (b : Word) : (addFlags 0 (~~~ b) true).v = decide (b = 0x80000000) := by
  have h0 : (0 : Word).toInt = 0 := rfl
  have hmin : (0x80000000 : Word).toInt = -2 ^ 31 := rfl
  have hle := BitVec.le_toInt b
  have hlt := BitVec.toInt_lt (x := b)
  rw [← subFlags_v_eq, Bool.eq_iff_iff, subFlags_v_iff, decide_eq_true_iff, ← BitVec.toInt_inj, h0, hmin, Bool.not_true,
    Bool.toNat_false]
  omega

/-- Settles O34: NEG adds one to the complement (decision D10), whose flags are those of -b. -/
theorem negate : Obligations.Negate := by
  unfold Obligations.Negate
  intro rd rs s
  have hlo := lo_setLo_setNZCV s rd (addWithCarry 0 (~~~ s.lo rs) true) (addFlags 0 (~~~ s.lo rs) true)
  obtain ⟨hn, hz, hc, hv⟩ := (nzcv_ext_iff _ _).mp (nzcv_setNZCV (s.setLo rd (addWithCarry 0 (~~~ s.lo rs) true))
    (addFlags 0 (~~~ s.lo rs) true))
  exact ⟨_, exec_neg rd rs s, hlo.trans (addWithCarry_zero_not _), hn.trans (congrArg BitVec.msb hlo.symm),
    hz.trans (addFlags_zero_not_z _), hc.trans (addFlags_zero_not_c _), hv.trans (addFlags_zero_not_v _)⟩

/-- The flags that CMP leaves: Z is equality, C the unsigned order. -/
theorem subFlags_true (a b : Word) : subFlags a b true =
    ⟨(a - b).msb, decide (a = b), decide (b.toNat ≤ a.toNat), a.msb != b.msb && (a - b).msb != a.msb⟩ := by
  rw [subFlags_of_difference (subWithBorrow_true a b).symm, decide_eq_decide.mpr sub_eq_zero]
  rfl

/-- Settles O35: each is a flag write alone, of the difference and of the sum. -/
theorem compareRegisters : Obligations.CompareRegisters := by
  unfold Obligations.CompareRegisters
  intro rd rs s
  have hcmp := (nzcv_setNZCV s _).trans (subFlags_true (s.lo rd) (s.lo rs))
  have hcmn := (nzcv_setNZCV s _).trans (addFlags_of_sum (addWithCarry_false (s.lo rd) (s.lo rs)).symm)
  exact ⟨⟨_, exec_cmpReg rd rs s, rfl, rfl, (nzcv_ext_iff _ _).mp hcmp⟩,
    ⟨_, exec_cmn rd rs s, rfl, rfl, (nzcv_ext_iff _ _).mp hcmn⟩⟩

/-! ### Multiplication (R174) -/

/-- Modulo 2^32 the signed product is the word product. -/
theorem ofInt_toInt_mul (a b : Word) : BitVec.ofInt 32 (a.toInt * b.toInt) = a * b := by
  rw [BitVec.ofInt_mul, BitVec.ofInt_toInt, BitVec.ofInt_toInt]

/-- Settles O36: the word product is the low half of both products. -/
theorem multiply : Obligations.Multiply := by
  unfold Obligations.Multiply
  intro rd rs s
  have hlo : ((s.setLo rd (s.lo rd * s.lo rs)).setMul (s.lo rd * s.lo rs)).lo rd = s.lo rd * s.lo rs := by simp
  refine ⟨_, exec_mul rd rs s, ?_⟩
  rw [hlo, ofInt_toInt_mul]
  exact ⟨BitVec.toNat_mul _ _, rfl, (nzcv_ext_iff _ _).mp (nzcv_setMul _ _)⟩

/-! ### A branch on the flags of CMP (R171; 10_state.md R50) -/

theorem branchesWhen_of_branchIf {i : Instr} {off : Int} {s : State} {taken : Bool} {p : Prop}
    (hi : exec i s = branchIf taken off s) (hp : taken = true ↔ p) : BranchesWhen i off s p := by
  rw [BranchesWhen, hi, branchIf, ← hp]
  exact ⟨fun h => by rw [if_pos h]; rfl, fun h => by rw [if_neg h]⟩

section
variable (a b : Word)

theorem condPassed_eq_compare : condPassed .eq (subFlags a b true) = true ↔ a = b := by
  rw [subFlags_true]
  exact decide_eq_true_iff

theorem condPassed_cs_compare : condPassed .cs (subFlags a b true) = true ↔ b.toNat ≤ a.toNat := by
  rw [subFlags_true]
  exact decide_eq_true_iff

/-- Higher is higher or same, and not the same. -/
theorem condPassed_hi_compare : condPassed .hi (subFlags a b true) = true ↔ b.toNat < a.toNat := by
  have hi_iff : condPassed .hi (subFlags a b true) = true ↔ b.toNat ≤ a.toNat ∧ ¬ a = b := by
    rw [subFlags_true]
    simp [condPassed]
  rw [hi_iff, ← BitVec.toNat_inj]
  omega

/-- N is the sign of the exact difference, except when that overflows; then V is set and N is the opposite. -/
theorem condPassed_lt_compare : condPassed .lt (subFlags a b true) = true ↔ a.toInt < b.toInt := by
  have ha := And.intro (BitVec.le_toInt a) (BitVec.toInt_lt (x := a))
  have hb := And.intro (BitVec.le_toInt b) (BitVec.toInt_lt (x := b))
  have hn : (subFlags a b true).n = true ↔ (a - b).toInt < 0 := by
    rw [subFlags_true, BitVec.msb_eq_toInt, decide_eq_true_iff]
  have hv := subFlags_v_iff a b true
  rw [BitVec.toInt_sub, Int.bmod_def] at hn
  rw [Bool.not_true, Bool.toNat_false] at hv
  have hlt : condPassed .lt (subFlags a b true) = true ↔
      ¬ ((subFlags a b true).n = true ↔ (subFlags a b true).v = true) := by
    rw [← Bool.eq_iff_iff]
    exact bne_iff_ne
  rw [hlt, hn, hv]
  omega

/-- Greater is not less, and not the same. -/
theorem condPassed_gt_compare : condPassed .gt (subFlags a b true) = true ↔ b.toInt < a.toInt := by
  have gt_iff : condPassed .gt (subFlags a b true) = true ↔ ¬ a = b ∧ ¬ a.toInt < b.toInt := by
    rw [← condPassed_eq_compare, ← condPassed_lt_compare]
    simp [condPassed]
  rw [gt_iff, ← BitVec.toInt_inj]
  omega

end

/-! The codes come in pairs of opposite conditions (10_state.md R50). -/

theorem condPassed_ne (f : NZCV) : condPassed .ne f = !condPassed .eq f := rfl
theorem condPassed_cc (f : NZCV) : condPassed .cc f = !condPassed .cs f := rfl
theorem condPassed_ls (f : NZCV) : condPassed .ls f = !condPassed .hi f := by simp [condPassed]
theorem condPassed_ge (f : NZCV) : condPassed .ge f = !condPassed .lt f := by simp [condPassed, bne]
theorem condPassed_le (f : NZCV) : condPassed .le f = !condPassed .gt f := by simp [condPassed, bne]

theorem opposite_passed_iff {x y : Bool} {p : Prop} (hy : y = !x) (hx : x = true ↔ p) : y = true ↔ ¬ p := by
  rw [hy, ← hx, Bool.not_eq_true, Bool.not_eq_true']

/-- Settles O45: five of the conditions are equality and the orders, and the other five are their opposites. -/
theorem compareThenBranchIsTheOrder : Obligations.CompareThenBranchIsTheOrder := by
  unfold Obligations.CompareThenBranchIsTheOrder
  intro rd rs s t off h
  have hf : t.nzcv = subFlags (s.lo rd) (s.lo rs) true := by
    cases (exec_cmpReg rd rs s).symm.trans h
    exact nzcv_setNZCV s _
  have heq := condPassed_eq_compare (s.lo rd) (s.lo rs)
  have hcs := condPassed_cs_compare (s.lo rd) (s.lo rs)
  have hhi := condPassed_hi_compare (s.lo rd) (s.lo rs)
  have hlt := condPassed_lt_compare (s.lo rd) (s.lo rs)
  have hgt := condPassed_gt_compare (s.lo rd) (s.lo rs)
  rw [← hf] at heq hcs hhi hlt hgt
  exact ⟨branchesWhen_of_branchIf rfl heq,
    branchesWhen_of_branchIf rfl (opposite_passed_iff (condPassed_ne _) heq),
    branchesWhen_of_branchIf rfl hcs,
    branchesWhen_of_branchIf rfl ((opposite_passed_iff (condPassed_cc _) hcs).trans not_le),
    branchesWhen_of_branchIf rfl hhi,
    branchesWhen_of_branchIf rfl ((opposite_passed_iff (condPassed_ls _) hhi).trans not_lt),
    branchesWhen_of_branchIf rfl ((opposite_passed_iff (condPassed_ge _) hlt).trans not_lt),
    branchesWhen_of_branchIf rfl hlt,
    branchesWhen_of_branchIf rfl hgt,
    branchesWhen_of_branchIf rfl ((opposite_passed_iff (condPassed_le _) hgt).trans not_lt)⟩

end Sys2Proof.Machine
end

section
/-! PROOFS. 43_load_store.md: what a load reads, what a store changes, and the frame of the memory. -/

namespace Sys2Proof.Machine

/-! ### Wide reads as the bytes they compose, least significant first (20_memory.md R85) -/

theorem memRead_one (s : State) (a : Word) : s.memRead a 1 = (s.readByte a).setWidth 32 := by
  simp [State.memRead]

theorem memRead_two (s : State) (a : Word) :
    s.memRead a 2 = (s.readByte (a + 1) ++ s.readByte a : BitVec 16).setWidth 32 := by
  refine (memRead_eq_of_bytes s a _ 2 (by decide) fun k hk => ?_).trans (setWidth_and_lowMask _)
  rw [BitVec.extractLsb'_setWidth_of_le (by omega)]
  interval_cases k
  · rw [BitVec.add_zero]
    exact (append_lo _ _).symm
  · exact (append_hi _ _).symm

theorem wordAt_byte (s : State) (a : Word) (k : Nat) (hk : k < 4) :
    (wordAt s a).extractLsb' (8 * k) 8 = s.readByte (a + BitVec.ofNat 32 k) := by
  unfold wordAt
  interval_cases k
  · rw [BitVec.add_zero]
    exact BitVec.extractLsb'_append_eq_right
  · rw [BitVec.extractLsb'_append_eq_of_le (by decide)]
    exact BitVec.extractLsb'_append_eq_right
  · rw [BitVec.extractLsb'_append_eq_of_le (by decide), BitVec.extractLsb'_append_eq_of_le (by decide)]
    exact BitVec.extractLsb'_append_eq_right
  · rw [BitVec.extractLsb'_append_eq_of_le (by decide), BitVec.extractLsb'_append_eq_of_le (by decide)]
    exact BitVec.extractLsb'_append_eq_left

theorem memRead_four (s : State) (a : Word) : s.memRead a 4 = wordAt s a :=
  (memRead_eq_of_bytes s a _ 4 (by decide) fun k hk => (wordAt_byte s a k hk).symm).trans BitVec.and_allOnes

/-! ### Loads (R190, R191, R193, R195, R197) -/

/-- A load completes with what the bus read gives; SW and the memory are as before (R190). -/
theorem loadInto_completes {a v : Word} {n : Nat} {s : State} (rd : LoReg) (h : s.memRead a n = v) :
    ∃ t, loadInto rd a n s = .next t ∧ t.lo rd = v ∧ t.sw = s.sw ∧ t.mem = s.mem :=
  ⟨s.setLo rd (s.memRead a n), rfl, by simp [h], setLo_sw s rd _, setLo_mem s rd _⟩

section
variable (rd rb : LoReg) (off : Nat) (s : State)

theorem exec_ldr : exec (.ldr rd rb off) s = loadInto rd (s.lo rb + BitVec.ofNat 32 off) 4 s := rfl
theorem exec_ldrLit : exec (.ldrLit rd off) s = loadInto rd ((s.pc &&& 0xFFFFFFFD) + BitVec.ofNat 32 off) 4 s := rfl
theorem exec_ldrb : exec (.ldrb rd rb off) s = loadInto rd (s.lo rb + BitVec.ofNat 32 off) 1 s := rfl
theorem exec_ldrh : exec (.ldrh rd rb off) s = loadInto rd (s.lo rb + BitVec.ofNat 32 off) 2 s := rfl

theorem exec_str :
    exec (.str rd rb off) s = .next (s.memWrite (s.lo rb + BitVec.ofNat 32 off) 4 (s.lo rd)) := rfl
theorem exec_strb :
    exec (.strb rd rb off) s = .next (s.memWrite (s.lo rb + BitVec.ofNat 32 off) 1 (s.lo rd)) := rfl
theorem exec_strh :
    exec (.strh rd rb off) s = .next (s.memWrite (s.lo rb + BitVec.ofNat 32 off) 2 (s.lo rd)) := rfl

end

/-- Settles O39: both are the shared load of four bytes, at their own addresses. -/
theorem wordLoads : Obligations.WordLoads := by
  unfold Obligations.WordLoads
  intro rd rb off s
  rw [exec_ldr, exec_ldrLit]
  exact ⟨loadInto_completes rd (memRead_four s _), loadInto_completes rd (memRead_four s _)⟩

/-- Settles O40: the shared load again, of one byte and of two. -/
theorem narrowLoadsZeroExtend : Obligations.NarrowLoadsZeroExtend := by
  unfold Obligations.NarrowLoadsZeroExtend
  intro rd rb off s
  rw [exec_ldrb, exec_ldrh]
  exact ⟨loadInto_completes rd (memRead_one s _), loadInto_completes rd (memRead_two s _)⟩

/-! ### Stores (R192, R194, R196) -/

theorem memWrite_storeOutcome (s : State) (ea v : Word) (n : Nat) (hn : n ≤ 4) :
    StoreOutcome ea n v s (s.memWrite ea n v) :=
  ⟨memWrite_regs s ea n v, memWrite_sw s ea n v, readByte_memWrite s ea v n (by omega)⟩

/-- Settles O41: each is one bus write of x[Rd], as wide as the instruction says. -/
theorem stores : Obligations.Stores := by
  unfold Obligations.Stores
  intro rd rb off s
  exact ⟨⟨_, exec_str rd rb off s, memWrite_storeOutcome s _ _ 4 (by decide)⟩,
    ⟨_, exec_strb rd rb off s, memWrite_storeOutcome s _ _ 1 (by decide)⟩,
    ⟨_, exec_strh rd rb off s, memWrite_storeOutcome s _ _ 2 (by decide)⟩⟩

/-! ### The frame of the memory (R190; 20_memory.md R90, R95) -/

theorem branchIf_mem {taken : Bool} {off : Int} {s t : State} (h : branchIf taken off s = .next t) : t.mem = s.mem := by
  cases h
  cases taken <;> rfl

section
variable {i : Instr} {s t : State} (h : exec i s = .next t)
include h

/-- Only a store writes the memory: every other instruction writes a register, SW or the pc at most. -/
theorem mem_of_no_store (hs : storeAt s i = none) : t.mem = s.mem := by
  cases i
  case beq | bne | bcs | bcc | bmi | bpl | bvs | bvc | bhi | bls | bge | blt | bgt | ble | bCondE | b =>
    exact branchIf_mem h
  case str | strb | strh => cases hs
  all_goals cases h; rfl

/-- What `storeAt` names is the bus write a store makes. -/
theorem memWrite_of_store {ea : Word} {n : Nat} (hs : storeAt s i = some (ea, n)) :
    n ≤ 4 ∧ ∃ v, t = s.memWrite ea n v := by
  cases i
  case str | strb | strh => cases hs; cases h; exact ⟨by decide, _, rfl⟩
  all_goals cases hs

end

/-- Settles O19: a byte read depends on nothing that an instruction other than a store changes, and a store is one bus
write at the address `storeAt` names. -/
theorem memoryFrame : Obligations.MemoryFrame := by
  unfold Obligations.MemoryFrame
  intro i s t h
  obtain ⟨himg, hdisplay, hrom, hcfg⟩ := (exec_effect h).fixed
  refine ⟨fun hs => ?_, fun ea n hs a outside => ?_, himg, hdisplay, hrom, hcfg⟩
  · have hmem := mem_of_no_store h hs
    exact ⟨hmem, readByte_congr s t hmem himg hdisplay hrom hcfg⟩
  · obtain ⟨hn, v, rfl⟩ := memWrite_of_store h hs
    rw [readByte_memWrite s ea v n (by omega), if_neg fun inside => Nat.not_lt.mpr outside inside.2]

end Sys2Proof.Machine
end

section
/-! PROOFS. 44_address_formation.md: the address that ADR forms, and its alignment. -/

namespace Sys2Proof.Machine

/-- ADR writes one register, with an address and not a memory read (R210). -/
theorem exec_adr (rd : LoReg) (off : Nat) (s : State) :
    exec (.adr rd off) s = .next (s.setLo rd ((s.pc &&& 0xFFFFFFFD) + BitVec.ofNat 32 off)) := rfl

/-- The mask clears bit 1 and an even word has bit 0 clear, so both low bits are (R210, the masked pc). -/
theorem masked_mod_four_of_even {x : Word} (he : x.getLsbD 0 = false) : (x &&& 0xFFFFFFFD).toNat % 4 = 0 := by
  have heven : x.toNat % 2 = 0 := (bit_zero_eq_false_iff x).mp he
  have hlow : (x &&& 0xFFFFFFFD).toNat % 4 = x.toNat % 4 &&& 1 := Nat.and_mod_two_pow (n := 2)
  have hcases : x.toNat % 4 = 0 ∨ x.toNat % 4 = 2 := by omega
  rw [hlow]
  rcases hcases with h | h <;> rw [h] <;> rfl

/-- The wrap at 2^32 keeps a sum of multiples of 4 a multiple of 4. -/
theorem add_ofNat_mod_four {x : Word} {n : Nat} (hx : x.toNat % 4 = 0) (hn : n % 4 = 0) :
    (x + BitVec.ofNat 32 n).toNat % 4 = 0 := by
  rw [BitVec.toNat_add, BitVec.toNat_ofNat]
  omega

/-- An offset ADR can encode is a multiple of 4 (30_encoding.md R122). -/
theorem adr_offset_mod_four {rd : LoReg} {off : Nat} (h : (Instr.adr rd off).wellFormed = true) : off % 4 = 0 := by
  simp only [Instr.wellFormed, uImmOk, Bool.and_eq_true, beq_iff_eq] at h
  exact h.1

/-- Settles O42: one register write, of the sum of two multiples of 4 when the pc is even. -/
theorem addressFormation : Obligations.AddressFormation := by
  unfold Obligations.AddressFormation
  intro rd off s
  have hlo := (lo_setLo s rd rd ((s.pc &&& 0xFFFFFFFD) + BitVec.ofNat 32 off)).trans (if_pos rfl)
  refine ⟨_, exec_adr rd off s, hlo, setLo_sw s rd _, setLo_mem s rd _, fun heven hwf => ?_⟩
  rw [hlo]
  exact add_ofNat_mod_four (masked_mod_four_of_even heven) (adr_offset_mod_four hwf)

end Sys2Proof.Machine
end

section
/-! PROOFS. 45_branch.md: the conditional branches, SWI and the unconditional branch. -/

namespace Sys2Proof.Machine

theorem exec_b (off : Int) (s : State) : exec (.b off) s = .next (s.setPc (s.pc + BitVec.ofInt 32 off)) := rfl
theorem exec_swi (comment : Nat) (s : State) : exec (.swi comment) s = .next s := rfl

/-! ### What the words decode to (30_encoding.md R119 to R122) -/

/-- The top five bits 11100 select B, and the other eleven are its offset, in halfwords. -/
theorem decodeWord_b (simm11 : BitVec 11) :
    decodeWord (0b11100#5 ++ simm11 : BitVec 16) = .b (simm11.toInt * 2) := by
  have htop : natField (0b11100#5 ++ simm11) 11 5 = 0b11100 := congrArg BitVec.toNat (top5_top _ _)
  have hoff : intField (0b11100#5 ++ simm11) 0 11 = simm11.toInt := congrArg BitVec.toInt (top5_rest _ _)
  rw [decodeWord, htop, hoff]
  rfl

/-- The top five bits 11011 select the conditional group, and condition 0xF in it is SWI. -/
theorem decodeWord_swi {w : Half} (h : w &&& 0xFF00 = 0xDF00) : decodeWord w = .swi (natField w 0 8) := by
  rw [decodeWord, natField_of_and 11 5 rfl h, natField_of_and 8 4 rfl h]
  rfl

/-- Twice a signed value at 32 bits is its sign extension shifted left by one. -/
theorem ofInt_toInt_mul_two {n : Nat} (x : BitVec n) : BitVec.ofInt 32 (x.toInt * 2) = x.signExtend 32 <<< 1 := by
  rw [BitVec.ofInt_mul, BitVec.shiftLeft_eq_mul_twoPow]
  rfl

/-! ### The unconditional instructions (R223, R224) -/

/-- Settles O47: the fetched word is B by twice its field, executed on the advanced state, whose pc is overwritten. -/
theorem unconditionalBranch : Obligations.UnconditionalBranch := by
  unfold Obligations.UnconditionalBranch
  refine ⟨exec_b, fun s simm11 h => ?_⟩
  rw [step_eq_exec, h, decodeWord_b, exec_b, advance_pc, ofInt_toInt_mul_two, State.advance, setPc_setPc,
    Nat.cast_ofNat]

/-- Settles O48: the fetched word is SWI, which leaves the advanced state as it is. -/
theorem softwareInterruptOnlyAdvances : Obligations.SoftwareInterruptOnlyAdvances := by
  unfold Obligations.SoftwareInterruptOnlyAdvances
  refine ⟨exec_swi, fun s h => ?_⟩
  rw [step_eq_exec, decodeWord_swi h, exec_swi, State.advance]

/-! ### The conditional branches (R220 to R222; 10_state.md R50, R51) -/

/-- Settles O43: each is the shared conditional branch, on one flag set or on one flag clear. -/
theorem branchesOnOneFlag : Obligations.BranchesOnOneFlag := by
  unfold Obligations.BranchesOnOneFlag
  intro off s
  exact ⟨branchesWhen_of_branchIf rfl Iff.rfl, branchesWhen_of_branchIf rfl (Bool.not_eq_true' s.flagZ).to_iff,
    branchesWhen_of_branchIf rfl Iff.rfl, branchesWhen_of_branchIf rfl (Bool.not_eq_true' s.flagC).to_iff,
    branchesWhen_of_branchIf rfl Iff.rfl, branchesWhen_of_branchIf rfl (Bool.not_eq_true' s.flagN).to_iff,
    branchesWhen_of_branchIf rfl Iff.rfl, branchesWhen_of_branchIf rfl (Bool.not_eq_true' s.flagV).to_iff⟩

/-- Settles O44: each is the shared conditional branch; its condition combines C and Z with N against V. -/
theorem branchesOnComparisons : Obligations.BranchesOnComparisons := by
  unfold Obligations.BranchesOnComparisons
  intro off s
  have hz : (!s.flagZ) = true ↔ s.flagZ = false := (Bool.not_eq_true' s.flagZ).to_iff
  have hc : (!s.flagC) = true ↔ s.flagC = false := (Bool.not_eq_true' s.flagC).to_iff
  have hge : condPassed .ge s.nzcv = true ↔ s.flagN = s.flagV := beq_iff_eq
  have hlt : condPassed .lt s.nzcv = true ↔ s.flagN ≠ s.flagV := bne_iff_ne
  exact ⟨branchesWhen_of_branchIf rfl (Bool.and_eq_true_iff.trans (and_congr_right' hz)),
    branchesWhen_of_branchIf rfl (Bool.or_eq_true_iff.trans (or_congr_left hc)),
    branchesWhen_of_branchIf rfl hge,
    branchesWhen_of_branchIf rfl hlt,
    branchesWhen_of_branchIf rfl (Bool.and_eq_true_iff.trans (and_congr hz hge)),
    branchesWhen_of_branchIf rfl (Bool.or_eq_true_iff.trans (or_congr_right hlt))⟩

/-- Settles O46: the shared conditional branch once more, on the parameter and on no flag. -/
theorem branchOnConditionE : Obligations.BranchOnConditionE := by
  unfold Obligations.BranchOnConditionE
  intro off s
  exact branchesWhen_of_branchIf rfl Iff.rfl

end Sys2Proof.Machine
end

section
/-! PROOFS. 46_unrecognized.md: the words of the classes U1 to U9. -/

namespace Sys2Proof.Machine

/-- An instruction without effect, when the fetched word is its encoding, leaves the advance alone (70_reset_and_hazards.md
R276, R278). -/
theorem step_of_encode_noop {i : Instr} {s : State} (hi : i.wellFormed = true) (hnoop : ∀ t, exec i t = .next t)
    (hw : encode i = s.fetchWord) : step s = .next (s.setPc (s.pc + 2)) := by
  rw [step_eq_exec, ← hw, decodeInvertsEncode i hi, hnoop, State.advance]

/-- Settles O49: each of the nine meanings is the no-op; and a word with the fixed bits of a class, which are its top
bits, is the encoding of that class with the word's other bits (30_encoding.md R125). -/
theorem unrecognizedWordsOnlyAdvance : Obligations.UnrecognizedWordsOnlyAdvance := by
  unfold Obligations.UnrecognizedWordsOnlyAdvance
  refine ⟨fun x y z s => ⟨rfl, rfl, rfl, rfl, rfl, rfl, rfl, rfl, rfl⟩, fun s h => ?_⟩
  obtain h | h | h | h | h | h | h | h | h := h
  · exact step_of_encode_noop (i := .unrecU1 _) rfl (fun _ => rfl) (top_append_rest (natField_of_and 11 5 rfl h))
  · exact step_of_encode_noop (i := .unrecU2 _) rfl (fun _ => rfl) (top_append_rest (natField_of_and 10 6 rfl h))
  · exact step_of_encode_noop (i := .unrecU3 _) rfl (fun _ => rfl) (top_append_rest (natField_of_and 12 4 rfl h))
  · exact step_of_encode_noop (i := .unrecU4 _) rfl (fun _ => rfl) (top_append_rest (natField_of_and 12 4 rfl h))
  · exact step_of_encode_noop (i := .unrecU5 _) rfl (fun _ => rfl) (top_append_rest (natField_of_and 11 5 rfl h))
  · exact step_of_encode_noop (i := .unrecU6 _) rfl (fun _ => rfl) (top_append_rest (natField_of_and 12 4 rfl h))
  · exact step_of_encode_noop (i := .unrecU7 _) rfl (fun _ => rfl) (top_append_rest (natField_of_and 12 4 rfl h))
  · exact step_of_encode_noop (i := .unrecU8 _) rfl (fun _ => rfl) (top_append_rest (natField_of_and 11 5 rfl h))
  · exact step_of_encode_noop (i := .unrecU9 _) rfl (fun _ => rfl) (top_append_rest (natField_of_and 12 4 rfl h))

end Sys2Proof.Machine
end

section
/-! PROOFS. 60_exceptions.md: every instruction completes. -/

namespace Sys2Proof.Machine

/-- Settles O7: none of the 57 meanings has a faulting or refusing branch. -/
theorem everyInstructionCompletes : Obligations.EveryInstructionCompletes := exec_completes

end Sys2Proof.Machine
end

section
/-! PROOFS. 70_reset_and_hazards.md: the fetch, runs, the frame of the registers, stored and placed code, the first fetch. -/

namespace Sys2Proof.Machine

/-! ### The fetch (R276 to R278) -/

/-- The fetched word is the one whose bytes stand at the fetch address, low byte first. -/
theorem fetchWord_of_bytes {s : State} {w : Half} (hlo : s.readByte s.fetchAddr = w.extractLsb' 0 8)
    (hhi : s.readByte (s.fetchAddr + 1) = w.extractLsb' 8 8) : s.fetchWord = w := by
  rw [fetchWord_eq, hlo, hhi, halves]

/-- Settles O5: the fetched word is the instruction's, and the decoder gives the instruction back. -/
theorem stepRunsTheDecodedInstruction : Obligations.StepRunsTheDecodedInstruction := by
  unfold Obligations.StepRunsTheDecodedInstruction
  intro s i hi hlo hhi
  rw [step_eq_exec, fetchWord_of_bytes hlo hhi, decodeInvertsEncode i hi, State.advance]

theorem readByte_pastImage {s : State} {a : Word} (hrom : s.region a = .rom) (hr : s.romAttached = true)
    (past : s.img.length ≤ a.toNat - s.cfg.romBase) : s.readByte a = 0xFF := by
  rw [readByte_attachedImage s a hrom hr, dif_neg (Nat.not_lt.mpr past)]

/-- Settles O9: both bytes are 0 in unmapped space and 0xFF past the image, and 0xFFFF is the last word of class U9. -/
theorem fetchOutsideTheImage : Obligations.FetchOutsideTheImage := by
  unfold Obligations.FetchOutsideTheImage
  intro s
  constructor
  · intro unmappedLo unmappedHi
    exact fetchWord_of_bytes (readByte_unmapped s _ unmappedLo) (readByte_unmapped s _ unmappedHi)
  · intro attached romLo romHi pastLo pastHi
    have hfetch : s.fetchWord = 0xFFFF :=
      fetchWord_of_bytes (readByte_pastImage romLo attached pastLo) (readByte_pastImage romHi attached pastHi)
    exact ⟨hfetch, step_of_encode_noop (i := .unrecU9 0xFFF) rfl (fun _ => rfl) hfetch.symm⟩

/-! ### Runs (R285) -/

/-- Settles O8, by induction on the number of steps: the state a run has reached makes one more step. -/
theorem everyRunGoesThrough : Obligations.EveryRunGoesThrough := by
  unfold Obligations.EveryRunGoesThrough
  intro n s
  induction n with
  | zero => exact ⟨s, rfl⟩
  | succ n ih =>
    obtain ⟨u, hrun⟩ := ih
    obtain ⟨t, hstep, -⟩ := everyStepCompletes u
    exact ⟨t, u, hrun, hstep⟩

/-- A state that a step leaves as it is stays so in every run. -/
theorem runsTo_of_step_self {s : State} (h : step s = .next s) (n : Nat) : s.RunsTo n s := by
  induction n with
  | zero => rfl
  | succ n ih => exact ⟨s, ih, h⟩

/-- 0xE7FF is B by -2, which takes back the advance. -/
theorem step_selfBranch {s : State} (h : s.fetchWord = 0xE7FF) : step s = .next s := by
  have hdecode : decodeWord 0xE7FF = .b (-2) := decodeWord_b (BitVec.allOnes 11)
  have hback : s.pc + 2 + BitVec.ofInt 32 (-2) = s.pc := by
    rw [BitVec.add_assoc]
    exact BitVec.add_zero s.pc
  rw [step_eq_exec, h, hdecode, exec_b, advance_pc, hback, State.advance, setPc_setPc, setPc_pc]

/-- Settles O16: a step of the self-branch goes back to where it was. That the pc is even is not needed: the advance
and the branch both work on the unmasked pc. -/
theorem selfBranchIsIdle : Obligations.SelfBranchIsIdle := by
  unfold Obligations.SelfBranchIsIdle
  intro s _ h
  exact runsTo_of_step_self (step_selfBranch h)

/-! ### The frame of the registers (R279; 10_state.md R32) -/

theorem reg_congr {s t : State} (h : t.regs = s.regs) (r : RegIdx) : t.reg r = s.reg r :=
  congrArg (fun regs => regs[r]) h

/-- Taken or not, a branch writes the pc at most. -/
theorem branchIf_reg {taken : Bool} {off : Int} {s t : State} (h : branchIf taken off s = .next t) {r : RegIdx}
    (h15 : r ≠ 15) : t.reg r = s.reg r := by
  cases h
  cases taken with
  | false => rfl
  | true => exact (reg_setPc s r _).trans (if_neg h15.symm)

section
variable {i : Instr} {s t : State} (h : exec i s = .next t)
include h

theorem reg_of_branch (hb : isBranch i = true) {r : RegIdx} (h15 : r ≠ 15) : t.reg r = s.reg r := by
  cases i
  case beq | bne | bcs | bcc | bmi | bpl | bvs | bvc | bhi | bls | bge | blt | bgt | ble | bCondE | b =>
    exact branchIf_reg h h15
  all_goals cases hb

/-- An instruction with a destination writes it, and no other register. -/
theorem regs_of_destination {rd : LoReg} (hd : destination i = some rd) : ∃ v, t.regs = (s.setLo rd v).regs := by
  cases i
  case lslImm | lsrImm | asrImm | movImm | addImm | subImm | and | eor | lslReg | lsrReg | asrReg | adc | sbc | rorReg
      | neg | orr | mul | bic | mvn | ldrLit | ldr | ldrb | ldrh | adr =>
    cases hd
    cases h
    exact ⟨_, rfl⟩
  all_goals cases hd

/-- An instruction that is no branch and has no destination writes no register: it sets flags, stores, or does nothing. -/
theorem regs_of_no_destination (hb : isBranch i = false) (hd : destination i = none) : t.regs = s.regs := by
  cases i
  case str | strb | strh => cases h; exact memWrite_regs s _ _ _
  case cmpImm | tst | cmpReg | cmn => cases h; exact setNZCV_regs s _
  case swi | unrecU1 | unrecU2 | unrecU3 | unrecU4 | unrecU5 | unrecU6 | unrecU7 | unrecU8 | unrecU9 => cases h; rfl
  case beq | bne | bcs | bcc | bmi | bpl | bvs | bvc | bhi | bls | bge | blt | bgt | ble | bCondE | b => cases hb
  all_goals cases hd

end

/-- Settles O17: a branch, an instruction with a destination, and one with neither. A destination is never the pc. -/
theorem registerFrame : Obligations.RegisterFrame := by
  unfold Obligations.RegisterFrame
  intro i s t h
  cases hb : isBranch i with
  | true => exact ⟨fun r h15 _ => reg_of_branch h hb h15, nofun⟩
  | false =>
    cases hd : destination i with
    | none =>
      have hregs := reg_congr (regs_of_no_destination h hb hd)
      exact ⟨fun r _ _ => hregs r, fun _ => hregs 15⟩
    | some rd =>
      obtain ⟨v, hv⟩ := regs_of_destination h hd
      have other {r : RegIdx} (hr : loIdx rd ≠ r) : t.reg r = s.reg r :=
        calc t.reg r = (s.setLo rd v).reg r := reg_congr hv r
          _ = s.reg r := (reg_setLo s rd r v).trans (if_neg hr)
      exact ⟨fun r _ hr => other (hr rd rfl), fun _ => other (loIdx_ne_pc rd)⟩

/-! ### Stored code (R283; 20_memory.md R102) -/

theorem ne_add_one (a : Word) : a ≠ a + 1 := by
  intro e
  exact absurd (left_eq_add.mp e) (by decide)

/-- A halfword written at the fetch address is the fetched word, where both its bytes are kept. -/
theorem fetchWord_memWrite {s : State} (v : Word) (hlo : s.writable s.fetchAddr = true)
    (hhi : s.writable (s.fetchAddr + 1) = true) : (s.memWrite s.fetchAddr 2 v).fetchWord = v.setWidth 16 := by
  have haddr : (s.memWrite s.fetchAddr 2 v).fetchAddr = s.fetchAddr := by
    simp only [State.fetchAddr, pc_memWrite]
  apply fetchWord_of_bytes
  · rw [haddr, memWrite_two, readByte_writeByte, if_neg fun h => ne_add_one _ h.2, readByte_writeByte,
      if_pos ⟨hlo, rfl⟩, BitVec.extractLsb'_setWidth_of_le (by decide)]
  · rw [haddr, memWrite_two, readByte_writeByte, writeByte_writable, if_pos ⟨hhi, rfl⟩,
      BitVec.extractLsb'_setWidth_of_le (by decide)]

/-- Settles O57: the store leaves the advanced pc, which is even, and its address is the next fetch address. -/
theorem nextStepExecutesAStoredHalfword : Obligations.NextStepExecutesAStoredHalfword := by
  unfold Obligations.NextStepExecutesAStoredHalfword
  intro s t rd rb off heven hdecode haddr hlo hhi hstep
  have hfetch : s.advance.fetchAddr = s.pc + 2 := by
    rw [State.fetchAddr, advance_pc, and_mask_of_even _ (add_even heven rfl)]
  have ht : s.advance.memWrite s.advance.fetchAddr 2 (s.lo rd) = t := by
    rw [step_eq_exec, hdecode, exec_strh, advance_lo, advance_lo, haddr, ← hfetch] at hstep
    exact Host.Outcome.next.inj hstep
  have hnext : s.pc + 2 + 1 = s.pc + 3 := BitVec.add_assoc s.pc 2 1
  have hword : t.fetchWord = (s.lo rd).setWidth 16 := by
    rw [← ht]
    apply fetchWord_memWrite
    · rw [hfetch]
      exact hlo
    · rw [hfetch, hnext]
      exact hhi
  rw [step_eq_exec, hword, State.advance]

/-! ### The start of the program image (00_scope.md R7) -/

section
variable {s : State} (hc : s.cfg.wf)
include hc

/-- The window holds two bytes at least, and does not wrap. -/
theorem romBase_toNat : (BitVec.ofNat 32 s.cfg.romBase).toNat = s.cfg.romBase ∧
    (BitVec.ofNat 32 s.cfg.romBase + 1).toNat = s.cfg.romBase + 1 := by
  obtain ⟨-, -, -, -, hsize, hend, -⟩ := hc
  have hone : (1 : Word).toNat = 1 := rfl
  rw [BitVec.toNat_add, hone, BitVec.toNat_ofNat]
  omega

theorem romBase_region : s.region (BitVec.ofNat 32 s.cfg.romBase) = .rom ∧
    s.region (BitVec.ofNat 32 s.cfg.romBase + 1) = .rom := by
  obtain ⟨hbase, hnext⟩ := romBase_toNat hc
  obtain ⟨-, -, -, -, hsize, -, -, -, -, -, hdr, -, -⟩ := hc
  simp only [State.region, regionAt_rom_iff _ _ hdr]
  omega

/-- ROM_BASE is even, so the mask keeps it. -/
theorem fetchAddr_romBase (hpc : s.pc = BitVec.ofNat 32 s.cfg.romBase) :
    s.fetchAddr = BitVec.ofNat 32 s.cfg.romBase := by
  obtain ⟨-, -, -, heven, -⟩ := hc
  rw [State.fetchAddr, hpc, and_mask_of_even _ (ofNat_even heven)]

/-- At ROM_BASE the fetch reads the first two bytes of an attached image, low byte first (20_memory.md R82). -/
theorem fetchWord_romBase (hpc : s.pc = BitVec.ofNat 32 s.cfg.romBase) (hr : s.romAttached = true) {b0 b1 : Byte}
    {rest : List Byte} (himg : s.img = b0 :: b1 :: rest) : s.fetchWord = b1 ++ b0 := by
  obtain ⟨hbase, hnext⟩ := romBase_toNat hc
  obtain ⟨hlo, hhi⟩ := romBase_region hc
  rw [fetchWord_eq, fetchAddr_romBase hc hpc, readByte_rom s _ hlo, readByte_rom s _ hhi, hbase, hnext, himg]
  simp [hr]

end

/-! ### The first fetch after reset (R271) -/

theorem append_eq_or_shift (hi lo : Byte) : (hi ++ lo : BitVec 16) = lo.setWidth 16 ||| (hi.setWidth 16 <<< 8) := by
  rw [BitVec.append_def, BitVec.or_comm, BitVec.setWidth'_eq, BitVec.shiftLeftZeroExtend_eq]

/-- Settles O59: reset puts the pc at ROM_BASE, and leaves the image and its attachment as they are. -/
theorem firstFetchAfterReset : Obligations.FirstFetchAfterReset := by
  unfold Obligations.FirstFetchAfterReset
  intro s b0 b1 rest hc hr himg
  have hpc : s.resetPort.pc = BitVec.ofNat 32 s.cfg.romBase := resetRegs_get s.cfg 15
  obtain ⟨hbase, -⟩ := romBase_toNat hc
  refine ⟨by rw [hpc, hbase], resetPort_flagT s, ?_⟩
  rw [fetchWord_romBase (s := s.resetPort) hc hpc hr himg, append_eq_or_shift]

/-! ### Placed code (assumption 6) -/

/-- Two placed bytes are the fetched word when both have a store: placing a byte attaches its store, so the second does
not hide the first. -/
theorem fetchWord_placeBytes {s : State} (w : Half) (hlo : s.region s.fetchAddr ≠ .unmapped)
    (hhi : s.region (s.fetchAddr + 1) ≠ .unmapped) :
    ((s.placeByte s.fetchAddr (w.extractLsb' 0 8)).placeByte (s.fetchAddr + 1) (w.extractLsb' 8 8)).fetchWord = w := by
  have hhi' : (s.placeByte s.fetchAddr (w.extractLsb' 0 8)).region (s.fetchAddr + 1) ≠ .unmapped := by
    rwa [placeByte_region]
  have hattached := placeByte_attached s s.fetchAddr (w.extractLsb' 0 8)
  apply fetchWord_of_bytes
  · rw [placeByte_fetchAddr, placeByte_fetchAddr,
      readByte_placeByte _ _ _ _ hhi' (.inr (by rwa [placeByte_region])), if_neg (ne_add_one _),
      readByte_placeByte _ _ _ _ hlo (.inl rfl), if_pos rfl]
  · rw [placeByte_fetchAddr, placeByte_fetchAddr, readByte_placeByte _ _ _ _ hhi' (.inl rfl), if_pos rfl]

/-- Where the loader places a word there are stores for both bytes: where they are already, else at ROM_BASE. -/
theorem withFetchableSlot_mapped {s : State} (hc : s.cfg.wf) :
    s.withFetchableSlot.region s.withFetchableSlot.fetchAddr ≠ .unmapped ∧
    s.withFetchableSlot.region (s.withFetchableSlot.fetchAddr + 1) ≠ .unmapped := by
  unfold State.withFetchableSlot
  split_ifs with h
  · have hpc := pc_setPc s (BitVec.ofNat 32 s.cfg.romBase)
    obtain ⟨hlo, hhi⟩ := romBase_region (s := s.setPc (BitVec.ofNat 32 s.cfg.romBase)) hc
    rw [fetchAddr_romBase (s := s.setPc _) hc hpc]
    exact ⟨ne_of_eq_of_ne hlo (by decide), ne_of_eq_of_ne hhi (by decide)⟩
  · exact not_or.mp h

theorem tableWord_16 (w : Nat) : tableWord 16 w = BitVec.ofNat 16 w := by
  apply BitVec.eq_of_toNat_eq
  rw [tableWord, BitVec.toNat_ofNat, BitVec.toNat_ofNat, Nat.mod_mod]

/-- Settles O60: the loader places the word's two bytes in the slot it has made sure of. -/
theorem placedWordIsFetched : Obligations.PlacedWordIsFetched := by
  unfold Obligations.PlacedWordIsFetched
  intro s w hc
  obtain ⟨hlo, hhi⟩ := withFetchableSlot_mapped hc
  rw [State.withFetchWord, tableWord_16]
  exact fetchWord_placeBytes _ hlo hhi

end Sys2Proof.Machine
end
